-- ==== Sys2Proof/Word.lean ====
section
/-! DEFINITION. The word types of the CHIP-8 core (10_state.md, 30_encoding.md R71). Every value is unsigned
(00_scope.md R9); arithmetic on them wraps. -/

namespace Sys2Proof

/-- 8 bits: a general register, a timer, a byte of memory, the immediate `NN`. -/
abbrev Byte := BitVec 8

/-- 16 bits: `I`, `PC`, `IR`, a stack entry, `KEYS`, an instruction word. -/
abbrev Word := BitVec 16

/-- 12 bits: the address field `NNN`. -/
abbrev Addr := BitVec 12

/-- 4 bits of an instruction word: a field as it is encoded. -/
abbrev Nibble := BitVec 4

/-- A general register number, `V[0]` to `V[15]` (10_state.md R20). -/
abbrev Reg := Fin 16

/-- A key number, 0x0 to 0xF (10_state.md R28). -/
abbrev Key := Fin 16

/-- The 2048 display bits; pixel `(x, y)` is bit `y*64 + x`, the spec's linear index (10_state.md R27, log 10). -/
abbrev Display := BitVec 2048

end Sys2Proof
end

