-- ==== Sys2Proof/Syntax.lean ====
section
/-! DEFINITION. The instructions: one constructor per row of the opcode map (30_encoding.md R74), in its order. A
field the row ignores (R76) stands as the last argument `ign`, so that an instruction says every bit of its word;
no meaning reads it (log 15). -/

namespace Sys2Proof

/-- The 34 operations with their fields (30_encoding.md R71, R74, R76, R77). -/
inductive Instr where
  /-- `0-E0`; `ign` is the ignored `X`. -/
  | clear (ign : Nibble)
  /-- `0-EE`, Return; `ign` is the ignored `X`. -/
  | ret (ign : Nibble)
  /-- `1NNN` -/
  | jump (nnn : Addr)
  /-- `2NNN` -/
  | call (nnn : Addr)
  /-- `3XNN` -/
  | skipEqImm (x : Reg) (nn : Byte)
  /-- `4XNN` -/
  | skipNeqImm (x : Reg) (nn : Byte)
  /-- `5XY-`; `ign` is the ignored `N`. -/
  | skipEqReg (x y : Reg) (ign : Nibble)
  /-- `6XNN` -/
  | loadImm (x : Reg) (nn : Byte)
  /-- `7XNN` -/
  | addImm (x : Reg) (nn : Byte)
  /-- `8XY0` -/
  | move (x y : Reg)
  /-- `8XY1` -/
  | or (x y : Reg)
  /-- `8XY2` -/
  | and (x y : Reg)
  /-- `8XY3` -/
  | xor (x y : Reg)
  /-- `8XY4` -/
  | addCarry (x y : Reg)
  /-- `8XY5` -/
  | subBorrow (x y : Reg)
  /-- `8X-6`; `ign` is the ignored `Y`. -/
  | shiftRight (x : Reg) (ign : Nibble)
  /-- `8XY7` -/
  | subBorrowRev (x y : Reg)
  /-- `8X-E`; `ign` is the ignored `Y`. -/
  | shiftLeft (x : Reg) (ign : Nibble)
  /-- `9XY-`; `ign` is the ignored `N`. -/
  | skipNeqReg (x y : Reg) (ign : Nibble)
  /-- `ANNN` -/
  | loadIndex (nnn : Addr)
  /-- `BNNN` -/
  | jumpPlusV0 (nnn : Addr)
  /-- `CXNN` -/
  | random (x : Reg) (nn : Byte)
  /-- `DXYN`; `n` is the number of sprite rows. -/
  | drawSprite (x y : Reg) (n : Fin 16)
  /-- `EX9E` -/
  | skipKeyPressed (x : Reg)
  /-- `EXA1` -/
  | skipKeyNotPressed (x : Reg)
  /-- `FX07` -/
  | readDelay (x : Reg)
  /-- `FX0A` -/
  | waitKey (x : Reg)
  /-- `FX15` -/
  | setDelay (x : Reg)
  /-- `FX18` -/
  | setSound (x : Reg)
  /-- `FX1E` -/
  | addIndex (x : Reg)
  /-- `FX29` -/
  | fontAddr (x : Reg)
  /-- `FX33` -/
  | bcd (x : Reg)
  /-- `FX55` -/
  | storeRegs (x : Reg)
  /-- `FX65` -/
  | loadRegs (x : Reg)
  deriving DecidableEq, Repr

end Sys2Proof
end

