-- ==== Sys2Proof/Decode.lean ====
section
/-! DEFINITION. The decoder and the encoder (30_encoding.md R70 to R77), both written from the field table R71 and
the opcode map R74. -/

namespace Sys2Proof

/-! ## The fields of a word (R71) -/

/-- `F = W[15:12]`, the opcode family. -/
def fieldF (w : Word) : Nibble := w.extractLsb' 12 4

/-- `W[11:8]` as it is encoded. -/
def nibbleX (w : Word) : Nibble := w.extractLsb' 8 4

/-- `W[7:4]` as it is encoded. -/
def nibbleY (w : Word) : Nibble := w.extractLsb' 4 4

/-- `N = W[3:0]`. -/
def fieldN (w : Word) : Nibble := w.extractLsb' 0 4

/-- `NN = W[7:0]`. -/
def fieldNN (w : Word) : Byte := w.extractLsb' 0 8

/-- `NNN = W[11:0]`. -/
def fieldNNN (w : Word) : Addr := w.extractLsb' 0 12

/-- A 4-bit field read as a number: a register number, or a row count. -/
def nibbleNum (b : Nibble) : Fin 16 := Fin.ofNat 16 b.toNat

/-- A number below 16 as a 4-bit field. -/
def numNibble (x : Fin 16) : Nibble := BitVec.ofNat 4 x.val

/-- `X`, the first register number. -/
def fieldX (w : Word) : Reg := nibbleNum (nibbleX w)

/-- `Y`, the second register number. -/
def fieldY (w : Word) : Reg := nibbleNum (nibbleY w)

/-! ## Decoding -/

/-- Why some bytes are no instruction. The first four name the no-op words of 30_encoding.md R75 by family: a Step
that fetches one is NO error, it performs nothing more than the fetch. `truncated`: fewer than two bytes (never
met by a Step, which always fetches two). -/
inductive NoRow where
  | family0
  | family8
  | familyE
  | familyF
  | truncated
  deriving DecidableEq, Repr

/-- Family 0 branches on the low byte; `X` is not compared (R76). -/
def decodeFamily0 (w : Word) : Except NoRow Instr :=
  if fieldNN w = 0xE0 then .ok (.clear (nibbleX w))
  else if fieldNN w = 0xEE then .ok (.ret (nibbleX w))
  else .error .family0

/-- Family 8 branches on the low nibble; `Y` is not compared in the shifts (R76). -/
def decodeFamily8 (w : Word) : Except NoRow Instr :=
  if fieldN w = 0 then .ok (.move (fieldX w) (fieldY w))
  else if fieldN w = 1 then .ok (.or (fieldX w) (fieldY w))
  else if fieldN w = 2 then .ok (.and (fieldX w) (fieldY w))
  else if fieldN w = 3 then .ok (.xor (fieldX w) (fieldY w))
  else if fieldN w = 4 then .ok (.addCarry (fieldX w) (fieldY w))
  else if fieldN w = 5 then .ok (.subBorrow (fieldX w) (fieldY w))
  else if fieldN w = 6 then .ok (.shiftRight (fieldX w) (nibbleY w))
  else if fieldN w = 7 then .ok (.subBorrowRev (fieldX w) (fieldY w))
  else if fieldN w = 0xE then .ok (.shiftLeft (fieldX w) (nibbleY w))
  else .error .family8

/-- Family E branches on the low byte. -/
def decodeFamilyE (w : Word) : Except NoRow Instr :=
  if fieldNN w = 0x9E then .ok (.skipKeyPressed (fieldX w))
  else if fieldNN w = 0xA1 then .ok (.skipKeyNotPressed (fieldX w))
  else .error .familyE

/-- Family F branches on the low byte. -/
def decodeFamilyF (w : Word) : Except NoRow Instr :=
  if fieldNN w = 0x07 then .ok (.readDelay (fieldX w))
  else if fieldNN w = 0x0A then .ok (.waitKey (fieldX w))
  else if fieldNN w = 0x15 then .ok (.setDelay (fieldX w))
  else if fieldNN w = 0x18 then .ok (.setSound (fieldX w))
  else if fieldNN w = 0x1E then .ok (.addIndex (fieldX w))
  else if fieldNN w = 0x29 then .ok (.fontAddr (fieldX w))
  else if fieldNN w = 0x33 then .ok (.bcd (fieldX w))
  else if fieldNN w = 0x55 then .ok (.storeRegs (fieldX w))
  else if fieldNN w = 0x65 then .ok (.loadRegs (fieldX w))
  else .error .familyF

/-- The decoder on one word: "dispatches on the top 4 bits to one of 16 instruction families. Each family further
branches on the low nibble or low byte" (R73, R74). -/
def decodeWord (w : Word) : Except NoRow Instr :=
  if fieldF w = 0 then decodeFamily0 w
  else if fieldF w = 1 then .ok (.jump (fieldNNN w))
  else if fieldF w = 2 then .ok (.call (fieldNNN w))
  else if fieldF w = 3 then .ok (.skipEqImm (fieldX w) (fieldNN w))
  else if fieldF w = 4 then .ok (.skipNeqImm (fieldX w) (fieldNN w))
  else if fieldF w = 5 then .ok (.skipEqReg (fieldX w) (fieldY w) (fieldN w))
  else if fieldF w = 6 then .ok (.loadImm (fieldX w) (fieldNN w))
  else if fieldF w = 7 then .ok (.addImm (fieldX w) (fieldNN w))
  else if fieldF w = 8 then decodeFamily8 w
  else if fieldF w = 9 then .ok (.skipNeqReg (fieldX w) (fieldY w) (fieldN w))
  else if fieldF w = 0xA then .ok (.loadIndex (fieldNNN w))
  else if fieldF w = 0xB then .ok (.jumpPlusV0 (fieldNNN w))
  else if fieldF w = 0xC then .ok (.random (fieldX w) (fieldNN w))
  else if fieldF w = 0xD then .ok (.drawSprite (fieldX w) (fieldY w) (nibbleNum (fieldN w)))
  else if fieldF w = 0xE then decodeFamilyE w
  else decodeFamilyF w

/-- Two bytes in memory order as a word: big-endian (20_memory.md R54). -/
def wordOfBytes (first second : Byte) : Word := first ++ second

/-- The first byte of a word in memory, `{F, X}` (R71). -/
def firstByte (w : Word) : Byte := w.extractLsb' 8 8

/-- The second byte of a word in memory, `NN` (R71). -/
def secondByte (w : Word) : Byte := w.extractLsb' 0 8

/-- The decoder on bytes: the instruction and the bytes that follow it (every instruction is two bytes, R70). -/
def decode : List Byte → Except NoRow (Instr × List Byte)
  | first :: second :: rest => (decodeWord (wordOfBytes first second)).map (·, rest)
  | _ => .error .truncated

/-! ## Encoding: the three formats (R72) -/

/-- Format `A`: family and address. -/
def formatA (f : Nibble) (nnn : Addr) : Word := f ++ nnn

/-- Format `XI`: family, the nibble `W[11:8]`, low byte. -/
def formatXI (f x : Nibble) (nn : Byte) : Word := f ++ x ++ nn

/-- Format `XY`: family and three nibbles. -/
def formatXY (f x y n : Nibble) : Word := f ++ x ++ y ++ n

/-- The word of an instruction, by the pattern column of the opcode map (R74). -/
def encode : Instr → Word
  | .clear ign => formatXI 0x0 ign 0xE0
  | .ret ign => formatXI 0x0 ign 0xEE
  | .jump nnn => formatA 0x1 nnn
  | .call nnn => formatA 0x2 nnn
  | .skipEqImm x nn => formatXI 0x3 (numNibble x) nn
  | .skipNeqImm x nn => formatXI 0x4 (numNibble x) nn
  | .skipEqReg x y ign => formatXY 0x5 (numNibble x) (numNibble y) ign
  | .loadImm x nn => formatXI 0x6 (numNibble x) nn
  | .addImm x nn => formatXI 0x7 (numNibble x) nn
  | .move x y => formatXY 0x8 (numNibble x) (numNibble y) 0x0
  | .or x y => formatXY 0x8 (numNibble x) (numNibble y) 0x1
  | .and x y => formatXY 0x8 (numNibble x) (numNibble y) 0x2
  | .xor x y => formatXY 0x8 (numNibble x) (numNibble y) 0x3
  | .addCarry x y => formatXY 0x8 (numNibble x) (numNibble y) 0x4
  | .subBorrow x y => formatXY 0x8 (numNibble x) (numNibble y) 0x5
  | .shiftRight x ign => formatXY 0x8 (numNibble x) ign 0x6
  | .subBorrowRev x y => formatXY 0x8 (numNibble x) (numNibble y) 0x7
  | .shiftLeft x ign => formatXY 0x8 (numNibble x) ign 0xE
  | .skipNeqReg x y ign => formatXY 0x9 (numNibble x) (numNibble y) ign
  | .loadIndex nnn => formatA 0xA nnn
  | .jumpPlusV0 nnn => formatA 0xB nnn
  | .random x nn => formatXI 0xC (numNibble x) nn
  | .drawSprite x y n => formatXY 0xD (numNibble x) (numNibble y) (numNibble n)
  | .skipKeyPressed x => formatXI 0xE (numNibble x) 0x9E
  | .skipKeyNotPressed x => formatXI 0xE (numNibble x) 0xA1
  | .readDelay x => formatXI 0xF (numNibble x) 0x07
  | .waitKey x => formatXI 0xF (numNibble x) 0x0A
  | .setDelay x => formatXI 0xF (numNibble x) 0x15
  | .setSound x => formatXI 0xF (numNibble x) 0x18
  | .addIndex x => formatXI 0xF (numNibble x) 0x1E
  | .fontAddr x => formatXI 0xF (numNibble x) 0x29
  | .bcd x => formatXI 0xF (numNibble x) 0x33
  | .storeRegs x => formatXI 0xF (numNibble x) 0x55
  | .loadRegs x => formatXI 0xF (numNibble x) 0x65

/-! ## The opcode map as the spec prints it (R74) -/

/-- One row of the opcode map: a word `w` is one of its words when `w &&& mask = value`. -/
structure MapRow where
  mnemonic : String
  mask : Word
  value : Word
  deriving DecidableEq, Repr

/-- `w &&& mask = value`, the spec's own test of a row (R74). -/
def MapRow.covers (r : MapRow) (w : Word) : Bool := w &&& r.mask == r.value

/-- The row of an instruction in the opcode map (R74): its mnemonic, mask and match. -/
def Instr.row : Instr → MapRow
  | .clear _ => ⟨"Clear", 0xF0FF, 0x00E0⟩
  | .ret _ => ⟨"Return", 0xF0FF, 0x00EE⟩
  | .jump _ => ⟨"Jump", 0xF000, 0x1000⟩
  | .call _ => ⟨"Call", 0xF000, 0x2000⟩
  | .skipEqImm _ _ => ⟨"SkipEqImm", 0xF000, 0x3000⟩
  | .skipNeqImm _ _ => ⟨"SkipNeqImm", 0xF000, 0x4000⟩
  | .skipEqReg _ _ _ => ⟨"SkipEqReg", 0xF000, 0x5000⟩
  | .loadImm _ _ => ⟨"LoadImm", 0xF000, 0x6000⟩
  | .addImm _ _ => ⟨"AddImm", 0xF000, 0x7000⟩
  | .move _ _ => ⟨"Move", 0xF00F, 0x8000⟩
  | .or _ _ => ⟨"Or", 0xF00F, 0x8001⟩
  | .and _ _ => ⟨"And", 0xF00F, 0x8002⟩
  | .xor _ _ => ⟨"Xor", 0xF00F, 0x8003⟩
  | .addCarry _ _ => ⟨"AddCarry", 0xF00F, 0x8004⟩
  | .subBorrow _ _ => ⟨"SubBorrow", 0xF00F, 0x8005⟩
  | .shiftRight _ _ => ⟨"ShiftRight", 0xF00F, 0x8006⟩
  | .subBorrowRev _ _ => ⟨"SubBorrowRev", 0xF00F, 0x8007⟩
  | .shiftLeft _ _ => ⟨"ShiftLeft", 0xF00F, 0x800E⟩
  | .skipNeqReg _ _ _ => ⟨"SkipNeqReg", 0xF000, 0x9000⟩
  | .loadIndex _ => ⟨"LoadIndex", 0xF000, 0xA000⟩
  | .jumpPlusV0 _ => ⟨"JumpPlusV0", 0xF000, 0xB000⟩
  | .random _ _ => ⟨"Random", 0xF000, 0xC000⟩
  | .drawSprite _ _ _ => ⟨"DrawSprite", 0xF000, 0xD000⟩
  | .skipKeyPressed _ => ⟨"SkipKeyPressed", 0xF0FF, 0xE09E⟩
  | .skipKeyNotPressed _ => ⟨"SkipKeyNotPressed", 0xF0FF, 0xE0A1⟩
  | .readDelay _ => ⟨"ReadDelay", 0xF0FF, 0xF007⟩
  | .waitKey _ => ⟨"WaitKey", 0xF0FF, 0xF00A⟩
  | .setDelay _ => ⟨"SetDelay", 0xF0FF, 0xF015⟩
  | .setSound _ => ⟨"SetSound", 0xF0FF, 0xF018⟩
  | .addIndex _ => ⟨"AddIndex", 0xF0FF, 0xF01E⟩
  | .fontAddr _ => ⟨"FontAddr", 0xF0FF, 0xF029⟩
  | .bcd _ => ⟨"BCD", 0xF0FF, 0xF033⟩
  | .storeRegs _ => ⟨"StoreRegs", 0xF0FF, 0xF055⟩
  | .loadRegs _ => ⟨"LoadRegs", 0xF0FF, 0xF065⟩

/-! ## The host's view of the decoder -/

/-- The instruction the decoder reads from the word whose bits are `w`, numbered as spec/opcode_table.json numbers
them (bit 0 the least significant of the word), only the low `nbits` of them given; `none` for a no-op word. -/
def decodeTableWord (nbits w : Nat) : Option Instr :=
  let word := BitVec.ofNat 16 (w % 2 ^ nbits)
  match decode [firstByte word, secondByte word] with
  | .ok (i, _) => some i
  | .error _ => none

end Sys2Proof
end

