-- ==== Sys2Proof/Config.lean ====
section
/-! DEFINITION. What is fixed for the machine (00_scope.md R6) and what the spec leaves open (00_scope.md R7). The
open parameters are constants without a body: no proof can see a value of one. -/

namespace Sys2Proof.Config

/-- `MEM_SIZE`: bytes of memory, addresses 0x000 to 0xFFF (R6). -/
abbrev memSize : Nat := 4096

/-- `LOAD_ADDR`: address of the first image byte (R6). -/
abbrev loadAddr : Nat := 0x200

/-- `MAX_IMAGE`: the longest image a Load accepts, 4096 - 0x200 (R6, 70_reset_and_hazards.md R231). -/
abbrev maxImage : Nat := 3584

/-- `FONT_LEN`: bytes of font data, addresses 0x000 to 0x04F (R6, 90_conflicts.md C5). -/
abbrev fontLen : Nat := 80

/-- `FONT`: the font table (R7, decision D8: open). Free: log 1. -/
opaque font : Fin 80 → Byte

/-- `rnd`: the byte the random source delivers at its `n`-th draw (R7, 43_family_9_to_C.md R143, decision D26:
open, no law relates one draw to another). Free: log 2. -/
opaque rnd : Nat → Byte

/-- `WAITKEY_PICK`: the choice made at the `n`-th completed key wait among the newly pressed keys (R7,
60_exceptions.md R215, decision D14: open). `pickKey` reduces it to one of the pressed keys. Free: log 3. -/
opaque waitKeyPick : Nat → Word → Nat

end Sys2Proof.Config
end

