-- ==== Sys2Proof/Machine/State.lean ====
section
/-! DEFINITION. The state of the core (10_state.md R20 to R36), the events and outputs by which it meets its
surroundings (60_exceptions.md), the reasons a step can stop, and the state after reset. -/

namespace Sys2Proof.Machine

/-- Memory: the bytes that differ from what an unlisted address reads as (`Memory.initial`), addresses strictly
rising (20_memory.md R50; the form is `Memory.wf`). -/
abbrev Memory := List Host.Cell

/-- The values of the 3-bit `FAULT` latch that the spec names (10_state.md R33, 60_exceptions.md R200); their
numbers are `FaultCode.code`. -/
inductive FaultCode where
  /-- 0: no fault since Load. -/
  | none
  /-- 1: Call on a full stack (R201). -/
  | stackOverflow
  /-- 2: Return on an empty stack (R202). -/
  | stackUnderflow
  /-- 3: an access above 0xFFF by the fetch, DrawSprite, BCD, StoreRegs or LoadRegs (R203). -/
  | memoryOutOfRange
  /-- 4: a key number above 15 in a key skip (R204). -/
  | keyIndexOutOfRange
  deriving DecidableEq, Repr

/-- The six events, each one atomic change of state (00_scope.md R8, 20_memory.md R58). -/
inductive Event where
  /-- An instruction slot: one Step (30_encoding.md R73), strobe `instr_en`. -/
  | step
  /-- Both timers tick (60_exceptions.md R212), strobe `timer_en`. -/
  | timerTick
  /-- The pad latch is replaced by `m` (60_exceptions.md R214), `key_in` with `key_we`. -/
  | padWrite (m : Word)
  /-- The quit signal (60_exceptions.md R216), strobe `halt_set`. -/
  | hostHalt
  /-- Pause or resume (60_exceptions.md R217), strobe `pause_tgl`. -/
  | hostPauseToggle
  /-- The only reset: load an image (70_reset_and_hazards.md R230). -/
  | load (img : List Byte)
  deriving DecidableEq, Repr

/-- The events the core raises towards its surroundings (60_exceptions.md R225). -/
inductive Output where
  /-- `snd_pulse`, in a TimerTick that begins with `ST > 0` (R213). -/
  | sndPulse
  /-- `load_err`: a Load was refused because its image is too large (R206, 70_reset_and_hazards.md R231). -/
  | imageTooLarge
  deriving DecidableEq, Repr

/-- Why a step stops. All are raised by an event offered in a state with `HALTED = 1` in which the event is not
enabled: Step, TimerTick, PadWrite, HostPauseToggle (70_reset_and_hazards.md R246, 93_implementation_defined.md U22
"stuck"). Safe: the spec gives these no transition, so the model says nothing about what follows. The latch `FAULT`
tells the two kinds of end apart (R246). No instruction stops: a fault of an instruction is a NEXT state with
`HALTED = 1` and `FAULT` set (60_exceptions.md R207). -/
inductive Fault where
  /-- `FAULT = 0`: the host halted the machine (R216). Safe. -/
  | hostHalted
  /-- `FAULT = 1`: the program died of StackOverflow (R201). Safe. -/
  | stackOverflow
  /-- `FAULT = 2`: the program died of StackUnderflow (R202). Safe. -/
  | stackUnderflow
  /-- `FAULT = 3`: the program died of MemoryOutOfRange (R203). Safe. -/
  | memoryOutOfRange
  /-- `FAULT = 4`: the program died of KeyIndexOutOfRange (R204). Safe. -/
  | keyIndexOutOfRange
  deriving DecidableEq, Repr

/-- Why an instruction has no meaning. Nothing raises it: every instruction of the opcode map has its meaning. -/
inductive Refusal where
  /-- Would be raised by an arm of `exec` that has no meaning yet. Safe. -/
  | notModelled (mnemonic : String)
  deriving DecidableEq, Repr

/-- The whole mutable state, `CpuState`, then the model's own fields. -/
structure State where
  /-- `V0` to `VF` (R20); `VF = V[15]` is the flag register (R21). -/
  v : Vector Byte 16
  /-- `I`, the index register (R22). -/
  idx : Word
  /-- `PC` (R23). -/
  pc : Word
  /-- `SP`, the count of stack entries in use, 0 to 16 (R25, log 11). -/
  sp : Fin 17
  /-- `STK[0]` to `STK[15]` (R24). -/
  stk : Vector Word 16
  /-- `DT`, the delay timer (R26). -/
  dt : Byte
  /-- `ST`, the sound timer (R26). -/
  st : Byte
  /-- `DISP` (R27). -/
  disp : Display
  /-- `KEYS`, the pad latch; bit `k` is key `k` (R28). -/
  keys : Word
  /-- `HALTED` (R29). -/
  halted : Bool
  /-- `PAUSED` (R30). -/
  paused : Bool
  /-- `IR`, the most recently fetched word (R31). -/
  ir : Word
  /-- `AWAIT`: a WaitKey is waiting (R32). -/
  await : Bool
  /-- `WAITX`: the register the waiting WaitKey will write (R32). -/
  waitX : Reg
  /-- `FAULT` (R33). -/
  fault : FaultCode
  /-- The 4096 bytes of memory (20_memory.md R50). -/
  mem : Memory
  /-- The model's own: the events the surroundings have raised and the core has not yet performed, oldest first;
  when it is empty the surroundings are taken to raise instruction slots (log 4). -/
  pending : List Event
  /-- The model's own: how many bytes the random source has delivered (log 2). -/
  rndDraws : Nat
  /-- The model's own: how many key waits have been completed (log 3). -/
  pickDraws : Nat
  /-- The model's own: the outputs raised so far, newest first (log 12). -/
  outs : List Output
  deriving DecidableEq, Repr

/-- What a step or a meaning answers. -/
abbrev Result := Host.Outcome State Fault Refusal

/-- The state after a Load of the empty image (10_state.md R35 with L = 0, log 7): memory lists nothing, so that
every byte reads as `Memory.initial`, the font at 0x000 to 0x04F and 0 elsewhere. -/
def State.reset : State where
  v := Vector.replicate 16 0
  idx := 0
  pc := 0x200
  sp := 0
  stk := Vector.replicate 16 0
  dt := 0
  st := 0
  disp := 0
  keys := 0
  halted := false
  paused := false
  ir := 0
  await := false
  waitX := 0
  fault := .none
  mem := []
  pending := []
  rndDraws := 0
  pickDraws := 0
  outs := []

end Sys2Proof.Machine
end

