-- ==== Sys2Proof/Machine/Ops.lean ====
section
/-! DEFINITION. The named operations over memory, registers, the stack and the display, and fault entry. Every
meaning is written over these. -/

namespace Sys2Proof.Machine

/-! ## Memory (20_memory.md) -/

/-- What an address that memory does not list reads as: the contents after Load, the font at 0x000 to 0x04F and 0
elsewhere (10_state.md R35, 20_memory.md R51, log 1, log 8). -/
def Memory.initial (a : Nat) : Byte := if h : a < 80 then Config.font ⟨a, h⟩ else 0

/-- The byte at address `a` (R53, R59). -/
def Memory.read : Memory → Nat → Byte
  | [], a => Memory.initial a
  | (b, w) :: t, a => if a = b then w else Memory.read t a

/-- A cell in front of a memory, listed only if it differs from what an unlisted address reads as. -/
def Memory.cons (a : Nat) (w : Byte) (t : Memory) : Memory :=
  if w = Memory.initial a then t else (a, w) :: t

/-- The byte at address `a` becomes `w` (R53, R59). The canonical form is kept. -/
def Memory.write : Memory → Nat → Byte → Memory
  | [], a, w => Memory.cons a w []
  | (b, u) :: t, a, w =>
    if a < b then Memory.cons a w ((b, u) :: t)
    else if a = b then Memory.cons a w t
    else (b, u) :: Memory.write t a w

/-- The canonical form from address `lo` up: addresses strictly rising and below 4096, no entry equal to what an
unlisted address reads as. -/
def Memory.wfFrom : Nat → Memory → Bool
  | _, [] => true
  | lo, (a, w) :: t => decide (lo ≤ a) && decide (a < Config.memSize) && (w != Memory.initial a) && Memory.wfFrom (a + 1) t

/-- The canonical form of memory. -/
def Memory.wf (m : Memory) : Bool := Memory.wfFrom 0 m

/-- The `n` bytes from address `a` up. -/
def Memory.readBytes (m : Memory) : Nat → Nat → List Byte
  | _, 0 => []
  | a, n + 1 => m.read a :: Memory.readBytes m (a + 1) n

/-- Bytes stored at successive addresses from `a` up, in rising order (R55). -/
def Memory.writeBytes (m : Memory) : Nat → List Byte → Memory
  | _, [] => m
  | a, b :: bs => Memory.writeBytes (m.write a b) (a + 1) bs

/-- The range check of an instruction that accesses the `n` bytes from `base` up: some access would use an address
above 0xFFF. Addresses do not wrap; no access, no fault (20_memory.md R53, 60_exceptions.md R203). -/
def rangeFaults (base n : Nat) : Bool := decide (0 < n) && decide (Config.memSize < base + n)

/-! ## Registers -/

/-- `V[x]` (10_state.md R20). -/
def State.reg (s : State) (x : Reg) : Byte := s.v[x]

/-- `V[x] <- b`. -/
def State.setReg (s : State) (x : Reg) (b : Byte) : State := { s with v := s.v.set x b }

/-- `I <- a`. -/
def State.setI (s : State) (a : Word) : State := { s with idx := a }

/-- `PC <- a`. -/
def State.setPc (s : State) (a : Word) : State := { s with pc := a }

/-- `PC <- (PC + 2) mod 65536`, a taken skip (41_family_3_to_7_skip_imm.md). -/
def State.skip (s : State) : State := s.setPc (s.pc + 2)

/-- A skip that is taken when `c` holds. -/
def State.skipIf (s : State) (c : Bool) : State := if c then s.skip else s

/-- `DT <- b`. -/
def State.setDt (s : State) (b : Byte) : State := { s with dt := b }

/-- `ST <- b`. -/
def State.setSt (s : State) (b : Byte) : State := { s with st := b }

/-- The display becomes `d`. -/
def State.setDisp (s : State) (d : Display) : State := { s with disp := d }

/-- Memory becomes `m`. -/
def State.setMem (s : State) (m : Memory) : State := { s with mem := m }

/-- What a good fetch of `w` leaves: `IR <- w`, `PC <- (PC + 2) mod 65536` (30_encoding.md R73). -/
def State.fetched (s : State) (w : Word) : State := { s with ir := w, pc := s.pc + 2 }

/-- `AWAIT <- 1`, `WAITX <- x` (46_family_F_misc.md R171). -/
def State.beginWait (s : State) (x : Reg) : State := { s with await := true, waitX := x }

/-- Registers `V[k]`, `V[k+1]`, … take the bytes in order. -/
def setRun (v : Vector Byte 16) : Nat → List Byte → Vector Byte 16
  | _, [] => v
  | k, b :: bs => setRun (v.setIfInBounds k b) (k + 1) bs

/-- The random source delivers its next byte: the draw counter moves on (43_family_9_to_C.md R143, log 2). -/
def State.drewRnd (s : State) : State := { s with rndDraws := s.rndDraws + 1 }

/-! ## The return stack (10_state.md R24, R25) -/

/-- The stack index of an entry count below 16. -/
def stackSlot (k : Fin 17) : Fin 16 := Fin.ofNat 16 k.val

/-- `SP + 1`; used with `SP < 16` only. -/
def spUp (p : Fin 17) : Fin 17 := Fin.ofNat 17 (p.val + 1)

/-- `SP - 1`; used with `SP > 0` only. -/
def spDown (p : Fin 17) : Fin 17 := Fin.ofNat 17 (p.val - 1)

/-- `STK[SP] <- a`, then `SP <- SP + 1` (40_family_0_1_2_flow.md R103). -/
def State.push (s : State) (a : Word) : State :=
  { s with stk := s.stk.set (stackSlot s.sp) a, sp := spUp s.sp }

/-- `SP <- SP - 1`, then `PC <- STK[SP]`; the entry keeps its bits (40_family_0_1_2_flow.md R101). -/
def State.popPc (s : State) : State :=
  { s with sp := spDown s.sp, pc := s.stk[stackSlot (spDown s.sp)] }

/-! ## The display (10_state.md R27, 44_family_D_draw.md R151) -/

/-- The linear index of pixel `(x mod 64, y mod 32)`. -/
def pixelIndex (x y : Nat) : Nat := (y % 32) * 64 + x % 64

/-- Whether pixel `(x mod 64, y mod 32)` is lit. -/
def pixelOn (d : Display) (x y : Nat) : Bool := d.getLsbD (pixelIndex x y)

/-- Pixel `(x mod 64, y mod 32)` inverted. -/
def togglePixel (d : Display) (x y : Nat) : Display := d ^^^ BitVec.twoPow 2048 (pixelIndex x y)

/-! ## Fault entry (60_exceptions.md R207)

There is no return from a fault (R208): no instruction resumes after one, and only the event Load clears `FAULT`
and `HALTED` (`State.loaded`, in Events.lean). -/

/-- `FAULT <- c`, `HALTED <- 1`, and nothing else: no saved register, no vector, no mode. -/
def State.raised (s : State) (c : FaultCode) : State := { s with fault := c, halted := true }

/-- `raise c`: the Step ends in the raised state. -/
def raise (c : FaultCode) (s : State) : Result := .next (s.raised c)

/-- The number of a fault code in the 3-bit latch (60_exceptions.md R200). -/
def FaultCode.code : FaultCode → BitVec 3
  | .none => 0
  | .stackOverflow => 1
  | .stackUnderflow => 2
  | .memoryOutOfRange => 3
  | .keyIndexOutOfRange => 4

/-- The stop of a halted machine, told from its latch (70_reset_and_hazards.md R246). -/
def stopReason : FaultCode → Fault
  | .none => .hostHalted
  | .stackOverflow => .stackOverflow
  | .stackUnderflow => .stackUnderflow
  | .memoryOutOfRange => .memoryOutOfRange
  | .keyIndexOutOfRange => .keyIndexOutOfRange

end Sys2Proof.Machine
end

