-- ==== Sys2Proof/Machine/Operands.lean ====
section
/-! DEFINITION. The operand forms (30_encoding.md R77): registers, the immediate `NN`, the address `NNN`, memory at
`I` plus a small offset, a key number, a decimal decomposition, a sprite. -/

namespace Sys2Proof.Machine

/-- `zext_16(NNN)` (R77). -/
def zextAddr (nnn : Addr) : Word := nnn.setWidth 16

/-- `zext_16(b)` of a byte (00_scope.md R9). -/
def zextByte (b : Byte) : Word := b.setWidth 16

/-- A small count as a 16-bit value. -/
def zextCount (n : Nat) : Word := BitVec.ofNat 16 n

/-- The address in `I` as a non-negative integer (20_memory.md R53). -/
def State.base (s : State) : Nat := s.idx.toNat

/-- How many registers the run `V[0]` to `V[X]` holds: `X + 1` (46_family_F_misc.md R177, R178). -/
def runLength (x : Reg) : Nat := x.val + 1

/-- The bytes of the run `V[0]` to `V[X]`, `V[0]` first. -/
def State.run (s : State) (x : Reg) : List Byte := s.v.toList.take (runLength x)

/-- The three decimal digits of a byte, hundreds first, one digit a byte (46_family_F_misc.md R176). -/
def bcdDigits (b : Byte) : List Byte :=
  [BitVec.ofNat 8 (b.toNat / 100), BitVec.ofNat 8 (b.toNat / 10 % 10), BitVec.ofNat 8 (b.toNat % 10)]

/-- `KeyDown(k)`: `none` when `k > 15` (the fault KeyIndexOutOfRange), else bit `k` of the latch
(45_family_E_keys.md R162). -/
def keyDown (keys : Word) (k : Byte) : Option Bool :=
  if 15 < k.toNat then none else some (keys.getLsbD k.toNat)

/-- A key number as the byte a WaitKey writes (60_exceptions.md R215). -/
def keyByte (k : Key) : Byte := BitVec.ofNat 8 k.val

/-! ## A sprite (44_family_D_draw.md R150, R151) -/

/-- Column `c` of a sprite byte, 0 to 7: bit 7 is the leftmost column (R151, log 10). -/
def spriteBit (b : Byte) (c : Nat) : Bool := b.getLsbD (7 - c)

/-- The display and the collision bit while a sprite is drawn. -/
structure Drawing where
  disp : Display
  coll : Bool
  deriving DecidableEq, Repr

/-- One sprite bit at `(px, py)`: a set bit notes a collision with a lit pixel and inverts the pixel (R150). -/
def drawPixel (on : Bool) (px py : Nat) (d : Drawing) : Drawing :=
  if on then { disp := togglePixel d.disp px py, coll := d.coll || pixelOn d.disp px py } else d

/-- The first `n` columns of one sprite row whose left edge is at `(x0, py)`, left first. -/
def drawCols (b : Byte) (x0 py : Nat) : Nat → Drawing → Drawing
  | 0, d => d
  | n + 1, d => drawPixel (spriteBit b n) (x0 + n) py (drawCols b x0 py n d)

/-- The rows of a sprite from row `r` down, top first; row `r` lies at `y0 + r`. -/
def drawRows (x0 y0 : Nat) : Nat → List Byte → Drawing → Drawing
  | _, [], d => d
  | r, b :: bs, d => drawRows x0 y0 (r + 1) bs (drawCols b x0 (y0 + r) 8 d)

end Sys2Proof.Machine
end

