-- ==== Sys2Proof/Machine/Flags.lean ====
section
/-! DEFINITION. The flag computations (10_state.md R21): `VF` is the only flag, written 0 or 1 by six instructions
from operand values read before any register is written, and written last. -/

namespace Sys2Proof.Machine

/-- The register number of `VF`. -/
def regF : Reg := 15

/-- A flag as it is written to `VF`: 0 or 1. -/
def flagByte (c : Bool) : Byte := if c then 1 else 0

/-- The carry out of an 8-bit addition: `a + b > 255` (42_family_8_alu.md R124). -/
def carryOut (a b : Byte) : Bool := decide (255 < a.toNat + b.toNat)

/-- No borrow in `a - b`: `a >= b`, unsigned (R125, R127). -/
def noBorrow (a b : Byte) : Bool := decide (b.toNat ≤ a.toNat)

/-- The bit a right shift by one moves out, `a[0]` (R126). -/
def outLow (a : Byte) : Bool := a.getLsbD 0

/-- The bit a left shift by one moves out, `a[7]` (R128). -/
def outHigh (a : Byte) : Bool := a.getLsbD 7

/-- The shape of the five arithmetic forms: `V[x] <- r`, then `V[15] <- flag`, so that with `x = 15` the flag wins
(R21, R130, 90_conflicts.md C7). -/
def State.setRegFlag (s : State) (x : Reg) (r : Byte) (c : Bool) : State :=
  (s.setReg x r).setReg regF (flagByte c)

end Sys2Proof.Machine
end

