-- ==== Sys2Proof/Machine/Alu.lean ====
section
/-! DEFINITION. Family 8 (42_family_8_alu.md). The operands are read from the state before the instruction; the
flag is written last (R21, 90_conflicts.md C7). -/

namespace Sys2Proof.Machine

/-- Move (R120). -/
def execMove (x y : Reg) (s : State) : Result := .next (s.setReg x (s.reg y))

/-- Or (R121); `VF` is not written. -/
def execOr (x y : Reg) (s : State) : Result := .next (s.setReg x (s.reg x ||| s.reg y))

/-- And (R122); `VF` is not written. -/
def execAnd (x y : Reg) (s : State) : Result := .next (s.setReg x (s.reg x &&& s.reg y))

/-- Xor (R123); `VF` is not written. -/
def execXor (x y : Reg) (s : State) : Result := .next (s.setReg x (s.reg x ^^^ s.reg y))

/-- AddCarry (R124). -/
def execAddCarry (x y : Reg) (s : State) : Result :=
  .next (s.setRegFlag x (s.reg x + s.reg y) (carryOut (s.reg x) (s.reg y)))

/-- SubBorrow (R125): `V[X] - V[Y]`, flag 1 when there is no borrow. -/
def execSubBorrow (x y : Reg) (s : State) : Result :=
  .next (s.setRegFlag x (s.reg x - s.reg y) (noBorrow (s.reg x) (s.reg y)))

/-- ShiftRight (R126): logical, by one, `V[X]` only. -/
def execShiftRight (x : Reg) (s : State) : Result :=
  .next (s.setRegFlag x (s.reg x >>> 1) (outLow (s.reg x)))

/-- SubBorrowRev (R127): `V[Y] - V[X]`, flag 1 when there is no borrow. -/
def execSubBorrowRev (x y : Reg) (s : State) : Result :=
  .next (s.setRegFlag x (s.reg y - s.reg x) (noBorrow (s.reg y) (s.reg x)))

/-- ShiftLeft (R128): by one, `V[X]` only. -/
def execShiftLeft (x : Reg) (s : State) : Result :=
  .next (s.setRegFlag x (s.reg x <<< 1) (outHigh (s.reg x)))

end Sys2Proof.Machine
end

