-- ==== Sys2Proof/Machine/Draw.lean ====
section
/-! DEFINITION. Family D (44_family_D_draw.md). -/

namespace Sys2Proof.Machine

/-- The display and the collision bit after the `n` sprite rows at `I` are drawn at `(V[X], V[Y])` (R150). -/
def drawnSprite (x y : Reg) (n : Fin 16) (s : State) : Drawing :=
  drawRows (s.reg x).toNat (s.reg y).toNat 0 (s.mem.readBytes s.base n.val) ⟨s.disp, false⟩

/-- DrawSprite (R150): the range check first; `VF` is the last write. -/
def execDrawSprite (x y : Reg) (n : Fin 16) (s : State) : Result :=
  if rangeFaults s.base n.val then raise .memoryOutOfRange s
  else
    .next ((s.setDisp (drawnSprite x y n s).disp).setReg regF (flagByte (drawnSprite x y n s).coll))

end Sys2Proof.Machine
end

