-- ==== Sys2Proof/Machine/Flow.lean ====
section
/-! DEFINITION. Families 0, 1, 2 (40_family_0_1_2_flow.md). Every meaning is the handler part of a Step: the state
it is given holds the post-fetch `PC` and `IR` (30_encoding.md R73). -/

namespace Sys2Proof.Machine

/-- Clear (R100). -/
def execClear (s : State) : Result := .next (s.setDisp 0)

/-- Return (R101). -/
def execRet (s : State) : Result :=
  if s.sp = 0 then raise .stackUnderflow s else .next s.popPc

/-- Jump (R102). -/
def execJump (nnn : Addr) (s : State) : Result := .next (s.setPc (zextAddr nnn))

/-- Call (R103): the post-fetch `PC` is pushed. -/
def execCall (nnn : Addr) (s : State) : Result :=
  if s.sp = 16 then raise .stackOverflow s else .next ((s.push s.pc).setPc (zextAddr nnn))

end Sys2Proof.Machine
end

