-- ==== Sys2Proof/Machine/Keys.lean ====
section
/-! DEFINITION. Family E (45_family_E_keys.md). -/

namespace Sys2Proof.Machine

/-- SkipKeyPressed (R160). -/
def execSkipKeyPressed (x : Reg) (s : State) : Result :=
  match keyDown s.keys (s.reg x) with
  | none => raise .keyIndexOutOfRange s
  | some down => .next (s.skipIf down)

/-- SkipKeyNotPressed (R161): a number above 15 does not count as not pressed. -/
def execSkipKeyNotPressed (x : Reg) (s : State) : Result :=
  match keyDown s.keys (s.reg x) with
  | none => raise .keyIndexOutOfRange s
  | some down => .next (s.skipIf (!down))

end Sys2Proof.Machine
end

