-- ==== Sys2Proof/Machine/Misc.lean ====
section
/-! DEFINITION. Family F (46_family_F_misc.md). None of the nine writes `VF` as a flag. -/

namespace Sys2Proof.Machine

/-- ReadDelay (R170). -/
def execReadDelay (x : Reg) (s : State) : Result := .next (s.setReg x s.dt)

/-- WaitKey (R171): the entry of the key wait; `V[X]` is written later, by the PadWrite that completes it
(60_exceptions.md R215, `completeWait` in Events.lean). -/
def execWaitKey (x : Reg) (s : State) : Result := .next (s.beginWait x)

/-- SetDelay (R172). -/
def execSetDelay (x : Reg) (s : State) : Result := .next (s.setDt (s.reg x))

/-- SetSound (R173): no pulse is emitted here. -/
def execSetSound (x : Reg) (s : State) : Result := .next (s.setSt (s.reg x))

/-- AddIndex (R174): modulo 65536, no flag. -/
def execAddIndex (x : Reg) (s : State) : Result := .next (s.setI (s.idx + zextByte (s.reg x)))

/-- FontAddr (R175): `V[X] * 5`, no mask. -/
def execFontAddr (x : Reg) (s : State) : Result := .next (s.setI (zextByte (s.reg x) * 5))

/-- BCD (R176): the check comes before any write; `I` is not changed. -/
def execBcd (x : Reg) (s : State) : Result :=
  if rangeFaults s.base 3 then raise .memoryOutOfRange s
  else .next (s.setMem (s.mem.writeBytes s.base (bcdDigits (s.reg x))))

/-- StoreRegs (R177): the check comes before any write; `I` is advanced by `X + 1`. -/
def execStoreRegs (x : Reg) (s : State) : Result :=
  if rangeFaults s.base (runLength x) then raise .memoryOutOfRange s
  else
    .next ((s.setMem (s.mem.writeBytes s.base (s.run x))).setI (s.idx + zextCount (runLength x)))

/-- `V[0]` to `V[X]` after they are loaded from memory at `I` (R178). -/
def loadedRun (x : Reg) (s : State) : Vector Byte 16 :=
  setRun s.v 0 (s.mem.readBytes s.base (runLength x))

/-- LoadRegs (R178): the check comes before any write; `I` is advanced by `X + 1`. -/
def execLoadRegs (x : Reg) (s : State) : Result :=
  if rangeFaults s.base (runLength x) then raise .memoryOutOfRange s
  else .next ({ s with v := loadedRun x s }.setI (s.idx + zextCount (runLength x)))

end Sys2Proof.Machine
end

