-- ==== Sys2Proof/Machine/NineToC.lean ====
section
/-! DEFINITION. Families 9, A, B, C (43_family_9_to_C.md). -/

namespace Sys2Proof.Machine

/-- SkipNeqReg (R140). -/
def execSkipNeqReg (x y : Reg) (s : State) : Result := .next (s.skipIf (s.reg x != s.reg y))

/-- LoadIndex (R141). -/
def execLoadIndex (nnn : Addr) (s : State) : Result := .next (s.setI (zextAddr nnn))

/-- JumpPlusV0 (R142): always `V[0]`; the sum is not reduced to 12 bits. -/
def execJumpPlusV0 (nnn : Addr) (s : State) : Result :=
  .next (s.setPc (zextAddr nnn + zextByte (s.reg 0)))

/-- What Random does with the byte `rnd` it takes (R143). -/
def randomWith (rnd : Byte) (x : Reg) (nn : Byte) (s : State) : State := s.setReg x (nn &&& rnd)

/-- Random (R143): exactly one byte is taken from the source, a free value (log 2). -/
def execRandom (x : Reg) (nn : Byte) (s : State) : Result :=
  .next (randomWith (Config.rnd s.rndDraws) x nn s).drewRnd

end Sys2Proof.Machine
end

