-- ==== Sys2Proof/Machine/SkipImm.lean ====
section
/-! DEFINITION. Families 3 to 7 (41_family_3_to_7_skip_imm.md). -/

namespace Sys2Proof.Machine

/-- SkipEqImm (R110). -/
def execSkipEqImm (x : Reg) (nn : Byte) (s : State) : Result := .next (s.skipIf (s.reg x == nn))

/-- SkipNeqImm (R111). -/
def execSkipNeqImm (x : Reg) (nn : Byte) (s : State) : Result := .next (s.skipIf (s.reg x != nn))

/-- SkipEqReg (R112). -/
def execSkipEqReg (x y : Reg) (s : State) : Result := .next (s.skipIf (s.reg x == s.reg y))

/-- LoadImm (R113). -/
def execLoadImm (x : Reg) (nn : Byte) (s : State) : Result := .next (s.setReg x nn)

/-- AddImm (R114): modulo 256, no flag. -/
def execAddImm (x : Reg) (nn : Byte) (s : State) : Result := .next (s.setReg x (s.reg x + nn))

end Sys2Proof.Machine
end

