-- ==== Sys2Proof/WellFormed.lean ====
section
/-! DEFINITION. The checks on what is given to the machine as text: an instruction as the assembler writes it, and
a program image.

The types of `Instr` already bound every field, so the one check on an instruction is the assembler's: ignored
fields are assembled as 0 (30_encoding.md R76, R80). The hardware runs the other words as well (R76), and so does
the model: decoding and execution do not ask for this check. -/

namespace Sys2Proof

/-- The instruction is one that the assembler syntax of 30_encoding.md R80 writes: its ignored field is 0. -/
def Instr.wellFormed : Instr → Bool
  | .clear ign => ign == 0
  | .ret ign => ign == 0
  | .jump _ => true
  | .call _ => true
  | .skipEqImm _ _ => true
  | .skipNeqImm _ _ => true
  | .skipEqReg _ _ ign => ign == 0
  | .loadImm _ _ => true
  | .addImm _ _ => true
  | .move _ _ => true
  | .or _ _ => true
  | .and _ _ => true
  | .xor _ _ => true
  | .addCarry _ _ => true
  | .subBorrow _ _ => true
  | .shiftRight _ ign => ign == 0
  | .subBorrowRev _ _ => true
  | .shiftLeft _ ign => ign == 0
  | .skipNeqReg _ _ ign => ign == 0
  | .loadIndex _ => true
  | .jumpPlusV0 _ => true
  | .random _ _ => true
  | .drawSprite _ _ _ => true
  | .skipKeyPressed _ => true
  | .skipKeyNotPressed _ => true
  | .readDelay _ => true
  | .waitKey _ => true
  | .setDelay _ => true
  | .setSound _ => true
  | .addIndex _ => true
  | .fontAddr _ => true
  | .bcd _ => true
  | .storeRegs _ => true
  | .loadRegs _ => true

/-- An image that a Load accepts: at most 4096 - 0x200 bytes (70_reset_and_hazards.md R231). -/
def imageFits (img : List Byte) : Bool := img.length ≤ Config.maxImage

end Sys2Proof
end

