-- ==== Sys2Proof/Machine/Events.lean ====
section
/-! DEFINITION. The six events (00_scope.md R8): the Step with its fetch (30_encoding.md R73), TimerTick, PadWrite
with the completion of a key wait, HostHalt, HostPauseToggle (60_exceptions.md R212 to R217) and Load
(70_reset_and_hazards.md R230). -/

namespace Sys2Proof.Machine

/-! ## Step -/

/-- The fetch: `{MemRead(PC), MemRead(PC+1)}`, or `none` when `PC + 1 > 0xFFF` (20_memory.md R53, R54). -/
def fetchWord (s : State) : Option Word :=
  if rangeFaults s.pc.toNat 2 then none
  else some (wordOfBytes (s.mem.read s.pc.toNat) (s.mem.read (s.pc.toNat + 1)))

/-- What a Step does with the word it fetched: `IR` and `PC` change, then the handler of the row that matches runs;
a no-op word changes nothing more (R73, R75). -/
def runWord (w : Word) (s : State) : Result :=
  match decodeWord w with
  | .ok i => exec i (s.fetched w)
  | .error _ => .next (s.fetched w)

/-- The body of an enabled Step (R73): nothing while a key is awaited; a fetch outside memory raises and leaves
`PC` and `IR` as they are. -/
def fetchExecute (s : State) : Result :=
  if s.await then .next s
  else
    match fetchWord s with
    | none => raise .memoryOutOfRange s
    | some w => runWord w s

/-- The event Step. Not enabled when halted: the machine has stopped (70_reset_and_hazards.md R246). Not enabled
when paused: the slot passes and nothing changes (60_exceptions.md R223, log 5). -/
def performStep (s : State) : Result :=
  if s.halted then .fault (stopReason s.fault)
  else if s.paused then .next s
  else fetchExecute s

/-! ## TimerTick (60_exceptions.md R212, R213) -/

/-- A timer one tick later: one less, never below 0. -/
def tickDown (b : Byte) : Byte := if b = 0 then 0 else b - 1

/-- The outputs after a tick: one `snd_pulse` more when `ST` was above 0 before it. -/
def outsAfterTick (s : State) : List Output := if s.st = 0 then s.outs else .sndPulse :: s.outs

/-- Both timers ticked. -/
def State.ticked (s : State) : State :=
  { s with dt := tickDown s.dt, st := tickDown s.st, outs := outsAfterTick s }

/-- The event TimerTick; not enabled when halted or paused. -/
def performTimerTick (s : State) : Result :=
  if s.halted then .fault (stopReason s.fault)
  else if s.paused then .next s
  else .next s.ticked

/-! ## PadWrite and the completion of a key wait (60_exceptions.md R214, R215) -/

/-- The keys that are up in `old` and down in `m`. -/
def newlyDown (old m : Word) : Word := m &&& ~~~old

/-- The numbers of the set bits of a mask, lowest first. -/
def keysOf (mask : Word) : List Key := (List.finRange 16).filter fun k => mask.getLsbD k.val

/-- The key a wait reports when the keys `ks` (not empty) went down together: the only one, or any one of them, as
the free value `choice` says (decision D14, log 3). -/
def pickKey (choice : Nat) : List Key → Key
  | [k] => k
  | ks => ks.getD (choice % ks.length) 0

/-- The second half of WaitKey: when a wait is on and some key went down, `V[WAITX]` takes its number and the wait
ends (R215). -/
def completeWait (newly : Word) (s : State) : State :=
  if s.await && newly != 0 then
    { s.setReg s.waitX (keyByte (pickKey (Config.waitKeyPick s.pickDraws newly) (keysOf newly))) with
      await := false, pickDraws := s.pickDraws + 1 }
  else s

/-- The latch replaced by `m`, then the completion judged against the old latch (R214). -/
def State.padWritten (s : State) (m : Word) : State :=
  completeWait (newlyDown s.keys m) { s with keys := m }

/-- The event PadWrite; not enabled when halted, enabled when paused. -/
def performPadWrite (m : Word) (s : State) : Result :=
  if s.halted then .fault (stopReason s.fault) else .next (s.padWritten m)

/-! ## Run control (60_exceptions.md R216, R217) -/

/-- The event HostHalt; enabled in every state. -/
def performHostHalt (s : State) : Result := .next { s with halted := true }

/-- The event HostPauseToggle; not enabled when halted. -/
def performHostPauseToggle (s : State) : Result :=
  if s.halted then .fault (stopReason s.fault) else .next { s with paused := !s.paused }

/-! ## Load (70_reset_and_hazards.md R230, R231) -/

/-- Memory after Load: the image from address `a` up over the cleared memory with its font. -/
def imageCells : Nat → List Byte → Memory
  | _, [] => []
  | a, b :: bs => Memory.cons a b (imageCells (a + 1) bs)

/-- Every element of state at its reset value, the image in memory (10_state.md R35). The fields of the
surroundings stay: the events still to come, the draws taken, the outputs raised (log 12). -/
def State.loaded (s : State) (img : List Byte) : State :=
  { State.reset with
    mem := imageCells Config.loadAddr img
    pending := s.pending
    rndDraws := s.rndDraws
    pickDraws := s.pickDraws
    outs := s.outs }

/-- The event Load; enabled in every state. An image above 3584 bytes is reported and changes nothing (R231). -/
def performLoad (img : List Byte) (s : State) : Result :=
  if imageFits img then .next (s.loaded img)
  else .next { s with outs := .imageTooLarge :: s.outs }

/-! ## One event -/

/-- The event `e`. -/
def perform (e : Event) (s : State) : Result :=
  match e with
  | .step => performStep s
  | .timerTick => performTimerTick s
  | .padWrite m => performPadWrite m s
  | .hostHalt => performHostHalt s
  | .hostPauseToggle => performHostPauseToggle s
  | .load img => performLoad img s

/-- The next event: the oldest pending one, which is taken off the list; an instruction slot when none is pending
(60_exceptions.md R221: any enabled event may happen next, log 4). -/
def performNext (s : State) : Result :=
  match s.pending with
  | [] => performStep s
  | e :: rest => perform e { s with pending := rest }

end Sys2Proof.Machine
end

