-- ==== Sys2Proof/Machine/Step.lean ====
section
/-! DEFINITION. One step of the machine: the next event. -/

namespace Sys2Proof.Machine

/-- One step: the oldest pending event of the surroundings, or an instruction slot when none is pending. -/
def step (s : State) : Host.Outcome State Fault Refusal := performNext s

/-- `s` with the instruction whose bits are the low `nbits` of `w` stored where the next step fetches, and with
what that fetch needs: the machine running (not halted, not paused, not awaiting a key), no other event pending,
and `PC` where two bytes can be fetched (log 7). -/
def State.withFetchWord (s : State) (nbits w : Nat) : State :=
  let word := BitVec.ofNat 16 (w % 2 ^ nbits)
  let pc := if rangeFaults s.pc.toNat 2 then BitVec.ofNat 16 Config.loadAddr else s.pc
  { s with
    mem := s.mem.writeBytes pc.toNat [firstByte word, secondByte word]
    pc := pc
    halted := false
    fault := .none
    paused := false
    await := false
    pending := [] }

end Sys2Proof.Machine
end

