-- ==== Sys2Proof/Machine/Ports.lean ====
section
/-! DEFINITION. The output ports (60_exceptions.md R219, R225): functions of the state that change nothing. -/

namespace Sys2Proof.Machine

/-- `disp_out`: the 2048 bits in the order of 10_state.md R27, bit `y*64 + x` for pixel `(x, y)`. -/
def dispOut (s : State) : BitVec 2048 := s.disp

/-- `dbg_*`: the read-only accessors (R219, R225). -/
structure DebugOut where
  v : Vector Byte 16
  idx : Word
  pc : Word
  /-- `SP` in its 5 bits (10_state.md R25). -/
  sp : BitVec 5
  dt : Byte
  st : Byte
  ir : Word
  /-- `FAULT` in its 3 bits (10_state.md R33). -/
  fault : BitVec 3
  halted : Bool
  paused : Bool
  deriving DecidableEq, Repr

/-- The debug port of a state. -/
def dbgOut (s : State) : DebugOut where
  v := s.v
  idx := s.idx
  pc := s.pc
  sp := BitVec.ofNat 5 s.sp.val
  dt := s.dt
  st := s.st
  ir := s.ir
  fault := s.fault.code
  halted := s.halted
  paused := s.paused

/-- How many `snd_pulse` events the core has raised (R213). -/
def soundPulses (s : State) : Nat := s.outs.count .sndPulse

/-- How many Loads were refused with ImageTooLarge (R206). -/
def loadErrors (s : State) : Nat := s.outs.count .imageTooLarge

/-- The four run states (60_exceptions.md R223). -/
inductive RunState where
  | running
  | awaitingKey
  | paused
  | halted
  deriving DecidableEq, Repr

/-- The run state, read off the flags (R223). -/
def runState (s : State) : RunState :=
  if s.halted then .halted
  else if s.paused then .paused
  else if s.await then .awaitingKey
  else .running

end Sys2Proof.Machine
end

