-- ==== Sys2Proof/Safety.lean ====
section
/-! DEFINITION. The terms the statements use: the invariant, what counts as a safe run, the condition of each
fault, who writes what, and the shapes of an instruction's effect. -/

namespace Sys2Proof.Machine

/-! ## The invariant -/

/-- What holds after a Load and is kept by every step. -/
structure Inv (s : State) : Prop where
  /-- Memory is in its canonical form. -/
  memCanonical : s.mem.wf = true
  /-- `FAULT` is set only in a halted machine (60_exceptions.md R207). -/
  faultHalts : s.fault ≠ .none → s.halted = true
  /-- `PC` is at most 0xFFF + 0xFF, so its 16-bit additions never wrap (10_state.md R23). -/
  pcBound : s.pc.toNat ≤ 0x10FE
  /-- A return address is a post-fetch `PC`, at most 0xFFE + 2 (40_family_0_1_2_flow.md R103). -/
  stackBound : ∀ k : Fin 16, (s.stk[k]).toNat ≤ 0x1000

/-! ## Safe runs (70_reset_and_hazards.md R246) -/

/-- The program has died: `FAULT` is set (60_exceptions.md R208). -/
def Died (s : State) : Prop := s.fault ≠ .none

/-- `n` steps from `s` without the program dying. -/
def SafeFor : Nat → State → Prop
  | 0, s => ¬ Died s
  | n + 1, s => ¬ Died s ∧ ∀ t, step s = .next t → SafeFor n t

/-- `PC` is the address of a self-jump, the customary end of a program (R247). -/
def AtSelfJump (s : State) : Prop :=
  ∃ nnn : Addr, s.pc = nnn.setWidth 16 ∧ fetchWord s = some (encode (.jump nnn))

/-! ## The condition of each fault (60_exceptions.md R200 to R204) -/

/-- The fault an instruction raises in a state, `none` when it raises none. -/
def faultOf (s : State) : Instr → FaultCode
  | .call _ => if s.sp.val = 16 then .stackOverflow else .none
  | .ret _ => if s.sp.val = 0 then .stackUnderflow else .none
  | .drawSprite _ _ n => if 0 < n.val ∧ 0xFFF < s.idx.toNat + n.val - 1 then .memoryOutOfRange else .none
  | .bcd _ => if 0xFFF < s.idx.toNat + 2 then .memoryOutOfRange else .none
  | .storeRegs x => if 0xFFF < s.idx.toNat + x.val then .memoryOutOfRange else .none
  | .loadRegs x => if 0xFFF < s.idx.toNat + x.val then .memoryOutOfRange else .none
  | .skipKeyPressed x => if 15 < (s.reg x).toNat then .keyIndexOutOfRange else .none
  | .skipKeyNotPressed x => if 15 < (s.reg x).toNat then .keyIndexOutOfRange else .none
  | _ => .none

/-! ## Who writes what (10_state.md R36, the column "written by instruction") -/

/-- The instruction writes general registers. -/
def writesV : Instr → Bool
  | .loadImm .. | .addImm .. | .move .. | .or .. | .and .. | .xor .. | .addCarry .. | .subBorrow ..
  | .shiftRight .. | .subBorrowRev .. | .shiftLeft .. | .random .. | .readDelay .. | .loadRegs ..
  | .drawSprite .. => true
  | _ => false

/-- The instruction writes `I`. -/
def writesI : Instr → Bool
  | .loadIndex .. | .addIndex .. | .fontAddr .. | .storeRegs .. | .loadRegs .. => true
  | _ => false

/-- The instruction writes `PC` beyond the fetch advance (10_state.md R23). -/
def writesPc : Instr → Bool
  | .ret .. | .jump .. | .call .. | .jumpPlusV0 .. | .skipEqImm .. | .skipNeqImm .. | .skipEqReg ..
  | .skipNeqReg .. | .skipKeyPressed .. | .skipKeyNotPressed .. => true
  | _ => false

/-- The instruction writes the stack and `SP`. -/
def writesStack : Instr → Bool
  | .call .. | .ret .. => true
  | _ => false

/-- The instruction writes the display. -/
def writesDisp : Instr → Bool
  | .clear .. | .drawSprite .. => true
  | _ => false

/-- The instruction writes memory. -/
def writesMem : Instr → Bool
  | .bcd .. | .storeRegs .. => true
  | _ => false

/-- The instruction writes `DT`. -/
def writesDt : Instr → Bool
  | .setDelay .. => true
  | _ => false

/-- The instruction writes `ST`. -/
def writesSt : Instr → Bool
  | .setSound .. => true
  | _ => false

/-- The instruction writes `AWAIT` and `WAITX`. -/
def writesAwait : Instr → Bool
  | .waitKey .. => true
  | _ => false

/-- The instruction can raise a fault. -/
def canFault : Instr → Bool
  | .call .. | .ret .. | .drawSprite .. | .bcd .. | .storeRegs .. | .loadRegs .. | .skipKeyPressed ..
  | .skipKeyNotPressed .. => true
  | _ => false

/-- The instruction takes a byte from the random source. -/
def takesRnd : Instr → Bool
  | .random .. => true
  | _ => false

/-- The instruction writes `VF` as a flag: exactly six (10_state.md R21). -/
def writesFlag : Instr → Bool
  | .addCarry .. | .subBorrow .. | .subBorrowRev .. | .shiftRight .. | .shiftLeft .. | .drawSprite .. => true
  | _ => false

/-- The instruction names register `r` as an ordinary destination: through `X`, or through the run of LoadRegs. -/
def namesDest (r : Reg) : Instr → Bool
  | .loadImm x _ | .addImm x _ | .move x _ | .or x _ | .and x _ | .xor x _ | .addCarry x _ | .subBorrow x _
  | .shiftRight x _ | .subBorrowRev x _ | .shiftLeft x _ | .random x _ | .readDelay x => r == x
  | .loadRegs x => decide (r ≤ x)
  | _ => false

/-! ## The shapes of an effect -/

/-- The words that pass the test `W & mask = value` are those that decode to `i`, its operands being the fields of
the word (30_encoding.md R71, R74). -/
def EncodedAs (mask value : Word) (i : Word → Instr) : Prop :=
  ∀ w : Word, w &&& mask = value ↔ decodeWord w = .ok (i w)

/-- From `s` to `t` the one change is that `V[x]` becomes `n`. -/
structure WritesReg (s t : State) (x : Reg) (n : Nat) : Prop where
  frame : t = { s with v := t.v }
  value : (t.reg x).toNat = n
  others : ∀ r, r ≠ x → t.reg r = s.reg r

/-- From `s` to `t` the changes are: `V[x]` becomes `n` (when `x` is not 15), and `VF` becomes 1 or 0 as `p` holds
or not, whichever register `x` is (10_state.md R21). -/
structure WritesRegFlag (s t : State) (x : Reg) (n : Nat) (p : Prop) : Prop where
  frame : t = { s with v := t.v }
  value : x ≠ 15 → (t.reg x).toNat = n
  flagSet : p → t.reg 15 = 1
  flagClear : ¬ p → t.reg 15 = 0
  others : ∀ r, r ≠ x → r ≠ 15 → t.reg r = s.reg r

/-- From `s` to `t` the one change is that `PC` moves on by 2, modulo 65536, when `p` holds. -/
structure SkipsWhen (s t : State) (p : Prop) : Prop where
  frame : t = { s with pc := t.pc }
  taken : p → t.pc.toNat = (s.pc.toNat + 2) % 65536
  notTaken : ¬ p → t.pc = s.pc

/-- DrawSprite with these operands has a set sprite bit on display pixel `(px, py)` (44_family_D_draw.md R151). -/
def SpriteOn (s : State) (x y : Reg) (n : Fin 16) (px py : Nat) : Prop :=
  ∃ r, r < n.val ∧ ∃ c, c < 8 ∧
    (s.mem.read (s.idx.toNat + r)).getLsbD (7 - c) = true ∧
    ((s.reg x).toNat + c) % 64 = px ∧ ((s.reg y).toNat + r) % 32 = py

/-- Byte `b` is what address `a` holds after `n` bytes were stored from `base` up over memory `m`, the `k`-th of them
of value `stored k`: the stored byte where the store reached `a`, else the byte that was there. -/
structure ByteAfterStore (m : Memory) (base n : Nat) (stored : Nat → Nat) (a : Nat) (b : Byte) : Prop where
  reached : ∀ k, k < n → base + k = a → b.toNat = stored k
  kept : a < base ∨ base + n ≤ a → b = m.read a

/-- The next fetch from `t` is at the `PC` of `s` and sees, byte by byte, memory as `s` held it with these `n` bytes
stored over it (20_memory.md R62). -/
def FetchSees (s t : State) (n : Nat) (stored : Nat → Nat) : Prop :=
  t.pc = s.pc ∧ ∃ first second, fetchWord t = some (wordOfBytes first second) ∧
    ByteAfterStore s.mem s.idx.toNat n stored s.pc.toNat first ∧
    ByteAfterStore s.mem s.idx.toNat n stored (s.pc.toNat + 1) second

/-! ## The next event -/

/-- The next event of `s` is an instruction slot, raised as an event or by default, and `u` is `s` with it taken off
the list of pending events (log 4). -/
def SlotNext (s u : State) : Prop :=
  (s.pending = [] ∧ u = s) ∨ ∃ rest, s.pending = .step :: rest ∧ u = { s with pending := rest }

/-! ## Stale stack entries (10_state.md R24) -/

/-- Two states that differ at most in stack entries at or above `SP`. -/
def StackAgree (s t : State) : Prop :=
  t = { s with stk := t.stk } ∧ ∀ k : Fin 16, k.val < s.sp.val → t.stk[k] = s.stk[k]

/-- Two answers of a step that agree in the same sense. -/
def ResultAgree : Result → Result → Prop
  | .next s, .next t => StackAgree s t
  | .fault a, .fault b => a = b
  | .refused a, .refused b => a = b
  | _, _ => False

end Sys2Proof.Machine
end

