-- ==== Sys2Proof/Certificates/Slice0/Obligations.lean ====
section
/-! DEFINITION. The statements for the provers. Where a statement rests on a choice that the spec marks as its own
decision (D<n> of 92_eei_decisions.md) or on a row of the assumption log (log <n>), its docstring says so. -/

open Sys2Proof Sys2Proof.Machine

/-! ## Encoding -/

/-- Decoding the word of any instruction gives the instruction back, with every field at every value the encoding
admits, ignored fields included (30_encoding.md R71, R72, R74, R77). -/
def Obligations.DecodeInvertsEncode : Prop :=
  ∀ i : Instr, decodeWord (encode i) = .ok i

/-- A word that decodes to an instruction is the word of that instruction: no bit of a word is dropped. -/
def Obligations.EncodeInvertsDecode : Prop :=
  ∀ (w : Word) (i : Instr), decodeWord w = .ok i → encode i = w

/-- The decoder agrees with the opcode map (30_encoding.md R74): a decoded word passes the test `W & mask = match`
of the row it decodes to and of no other row, and a word is no instruction exactly when no row matches it. -/
def Obligations.DecoderFollowsOpcodeMap : Prop :=
  ∀ w : Word,
    (∀ i, decodeWord w = .ok i →
      w &&& i.row.mask = i.row.value ∧ ∀ j : Instr, w &&& j.row.mask = j.row.value → j.row = i.row) ∧
    ((∃ e, decodeWord w = .error e) ↔ ∀ j : Instr, w &&& j.row.mask ≠ j.row.value)

/-- The no-op words are exactly those 30_encoding.md R75 lists: family 0 with `NN` other than 0xE0 and 0xEE, family
8 with `N` in 8 to 0xD or 0xF, family 0xE with `NN` other than 0x9E and 0xA1, family 0xF with `NN` other than its
nine values. -/
def Obligations.NoOpWordsAreExactlyThoseListed : Prop :=
  ∀ w : Word,
    (∃ e, decodeWord w = .error e) ↔
      (w.toNat / 4096 = 0 ∧ w.toNat % 256 ≠ 0xE0 ∧ w.toNat % 256 ≠ 0xEE) ∨
      (w.toNat / 4096 = 8 ∧ w.toNat % 16 ∈ [8, 9, 0xA, 0xB, 0xC, 0xD, 0xF]) ∨
      (w.toNat / 4096 = 0xE ∧ w.toNat % 256 ≠ 0x9E ∧ w.toNat % 256 ≠ 0xA1) ∨
      (w.toNat / 4096 = 0xF ∧ w.toNat % 256 ∉ [0x07, 0x0A, 0x15, 0x18, 0x1E, 0x29, 0x33, 0x55, 0x65])

/-- Words written out from the patterns of 30_encoding.md R74 decode to the instruction they stand for, one of each
family, and an ignored field is not compared (R76, decisions D5 and D6). -/
def Obligations.WrittenOutWordsDecode : Prop :=
  decodeWord 0x00E0 = .ok (.clear 0) ∧ decodeWord 0x07EE = .ok (.ret 7) ∧
  decodeWord 0x124E = .ok (.jump 0x24E) ∧ decodeWord 0x2ABC = .ok (.call 0xABC) ∧
  decodeWord 0x332A = .ok (.skipEqImm 3 0x2A) ∧ decodeWord 0x432A = .ok (.skipNeqImm 3 0x2A) ∧
  decodeWord 0x5123 = .ok (.skipEqReg 1 2 3) ∧ decodeWord 0x6AFF = .ok (.loadImm 0xA 0xFF) ∧
  decodeWord 0x7020 = .ok (.addImm 0 0x20) ∧ decodeWord 0x8AB6 = .ok (.shiftRight 0xA 0xB) ∧
  decodeWord 0x9120 = .ok (.skipNeqReg 1 2 0) ∧ decodeWord 0xA2F0 = .ok (.loadIndex 0x2F0) ∧
  decodeWord 0xB300 = .ok (.jumpPlusV0 0x300) ∧ decodeWord 0xC30F = .ok (.random 3 0x0F) ∧
  decodeWord 0xD01F = .ok (.drawSprite 0 1 15) ∧ decodeWord 0xE19E = .ok (.skipKeyPressed 1) ∧
  decodeWord 0xF533 = .ok (.bcd 5) ∧ decodeWord 0x8128 = .error .family8

/-! ## The Step (30_encoding.md R73) -/

/-- When the big-endian word at `PC` decodes to `i`, the machine runs, and the next event is an instruction slot,
the step is `i` executed with `IR` the word and `PC` moved on by 2 (R73, 20_memory.md R54). Which event is next is
the model's own field `pending` (log 4). -/
def Obligations.StepRunsTheDecodedInstruction : Prop :=
  ∀ (s : State) (w : Word) (i : Instr),
    s.halted = false → s.paused = false → s.await = false → s.pc.toNat ≤ 0xFFE →
    w.toNat = 256 * (s.mem.read s.pc.toNat).toNat + (s.mem.read (s.pc.toNat + 1)).toNat →
    decodeWord w = .ok i →
    (s.pending = [] → step s = exec i { s with ir := w, pc := s.pc + 2 }) ∧
    (∀ rest, s.pending = .step :: rest →
      step s = exec i { s with pending := rest, ir := w, pc := s.pc + 2 })

/-- A no-op word is fetched, `IR` and `PC` change, and nothing else does; it is no error (30_encoding.md R75). The
slot may be pending as an event or stand for an empty list (log 4). -/
def Obligations.NoOpWordChangesOnlyIrAndPc : Prop :=
  ∀ (s u : State) (w : Word) (e : NoRow), SlotNext s u →
    s.halted = false → s.paused = false → s.await = false → s.pc.toNat ≤ 0xFFE →
    w.toNat = 256 * (s.mem.read s.pc.toNat).toNat + (s.mem.read (s.pc.toNat + 1)).toNat →
    decodeWord w = .error e →
    step s = .next { u with ir := w, pc := s.pc + 2 }

/-- A fetch with `PC > 0xFFE` sets `FAULT` to MemoryOutOfRange and `HALTED`, and leaves all else, `PC` and `IR`
included (30_encoding.md R73, 60_exceptions.md R203; the spec's decisions D3, D16, D17). The slot may be pending as
an event or stand for an empty list (log 4). -/
def Obligations.FetchOutsideMemoryRaises : Prop :=
  ∀ s u : State, SlotNext s u →
    s.halted = false → s.paused = false → s.await = false → 0xFFE < s.pc.toNat →
    step s = .next { u with fault := .memoryOutOfRange, halted := true }

/-- An instruction slot while a key is awaited (30_encoding.md R73, U21) or while paused (60_exceptions.md R223)
changes nothing; when the machine is halted it stops, and the stop names what `FAULT` holds (70_reset_and_hazards.md
R246, U22). That a slot in a paused machine passes and that a halted one stops are the model's choice (log 5). The
slot may be pending as an event or stand for an empty list (log 4). -/
def Obligations.SlotsThatExecuteNothing : Prop :=
  ∀ s u : State, SlotNext s u →
    (s.halted = false → s.paused = true ∨ s.await = true → step s = .next u) ∧
    (s.halted = true → step s = .fault (stopReason s.fault))

/-- The word of any instruction, placed where the next step fetches, is what that step runs: stored high byte first,
fetched high byte first (20_memory.md R54; `withFetchWord` stands for the Load of a program, log 7). -/
def Obligations.PlacedWordIsFetchedAndRun : Prop :=
  ∀ (s : State) (i : Instr), s.mem.wf = true →
    let u := s.withFetchWord 16 (encode i).toNat
    step u = exec i { u with ir := encode i, pc := u.pc + 2 } ∧
    u = { s with
      mem := u.mem, pc := u.pc, halted := false, fault := .none, paused := false, await := false, pending := [] } ∧
    (s.pc.toNat ≤ 0xFFE → u.pc = s.pc) ∧
    ∀ a, a ≠ u.pc.toNat → a ≠ u.pc.toNat + 1 → u.mem.read a = s.mem.read a

/-! ## Families 0, 1, 2, A, B -/

/-- Clear makes every pixel 0 and changes nothing else, `VF` included, whatever its ignored field
(40_family_0_1_2_flow.md R100). -/
def Obligations.ClearMakesEveryPixelZero : Prop :=
  ∀ (ign : Nibble) (s : State), ∃ t,
    exec (.clear ign) s = .next t ∧ t = { s with disp := t.disp } ∧
    ∀ x y : Nat, x < 64 → y < 32 → pixelOn t.disp x y = false

/-- Jump sets `PC` to `NNN`, JumpPlusV0 to `NNN + V[0]` without reduction, LoadIndex sets `I` to `NNN`; each changes
nothing else; and their encodings (40_family_0_1_2_flow.md R102, 43_family_9_to_C.md R141, R142). -/
def Obligations.JumpsAndLoadIndex : Prop :=
  (EncodedAs 0xF000 0x1000 (fun w => .jump (fieldNNN w)) ∧
    EncodedAs 0xF000 0xB000 (fun w => .jumpPlusV0 (fieldNNN w)) ∧
    EncodedAs 0xF000 0xA000 (fun w => .loadIndex (fieldNNN w))) ∧
  ∀ (nnn : Addr) (s : State),
    (∃ t, exec (.jump nnn) s = .next t ∧ t = { s with pc := t.pc } ∧ t.pc.toNat = nnn.toNat) ∧
    (∃ t, exec (.jumpPlusV0 nnn) s = .next t ∧ t = { s with pc := t.pc } ∧
      t.pc.toNat = nnn.toNat + (s.reg 0).toNat) ∧
    (∃ t, exec (.loadIndex nnn) s = .next t ∧ t = { s with idx := t.idx } ∧ t.idx.toNat = nnn.toNat)

/-- Call with `SP < 16` writes the post-fetch `PC` to `STK[SP]`, adds 1 to `SP`, jumps to `NNN`, and leaves every
other stack entry and all else; with `SP = 16` it raises StackOverflow and changes nothing else
(40_family_0_1_2_flow.md R103; the form of the fault is the spec's decision D16). -/
def Obligations.CallPushesAndJumps : Prop :=
  ∀ (nnn : Addr) (s : State),
    (∀ k : Fin 16, s.sp.val = k.val → ∃ t,
      exec (.call nnn) s = .next t ∧ t = { s with stk := t.stk, sp := t.sp, pc := t.pc } ∧
      t.stk[k] = s.pc ∧ (∀ j : Fin 16, j ≠ k → t.stk[j] = s.stk[j]) ∧
      t.sp.val = s.sp.val + 1 ∧ t.pc.toNat = nnn.toNat) ∧
    (s.sp.val = 16 → exec (.call nnn) s = .next { s with fault := .stackOverflow, halted := true })

/-- Return with `SP > 0` subtracts 1 from `SP` and loads `PC` from that entry, which keeps its bits; with `SP = 0` it
raises StackUnderflow and changes nothing else (40_family_0_1_2_flow.md R101; the form of the fault is the spec's
decision D16). -/
def Obligations.ReturnPopsThePc : Prop :=
  ∀ (ign : Nibble) (s : State),
    (∀ k : Fin 16, s.sp.val = k.val + 1 → ∃ t,
      exec (.ret ign) s = .next t ∧ t = { s with sp := t.sp, pc := t.pc } ∧
      t.sp.val = k.val ∧ t.pc = s.stk[k]) ∧
    (s.sp.val = 0 → exec (.ret ign) s = .next { s with fault := .stackUnderflow, halted := true })

/-- A subroutine that ends with `SP` and the one entry the Call pushed as the Call left them, whatever else it does
(nested balanced calls included, which leave stale entries above), returns to the instruction after the Call with
`SP` as before it ("`Call` followed immediately by `Return` restores `PC`", 40_family_0_1_2_flow.md R101, R103). -/
def Obligations.ReturnUndoesCall : Prop :=
  ∀ (nnn : Addr) (ign : Nibble) (s : State) (k : Fin 16), s.sp.val = k.val →
    ∃ t, exec (.call nnn) s = .next t ∧
      ∀ b : State, b.stk[k] = t.stk[k] → b.sp = t.sp →
        exec (.ret ign) b = .next { b with sp := s.sp, pc := s.pc }

/-! ## Skips -/

/-- The four skips on registers and immediates: `PC` moves on by 2 exactly when the operands are equal (or unequal),
and nothing else changes (41_family_3_to_7_skip_imm.md R110, R111, R112, 43_family_9_to_C.md R140). -/
def Obligations.SkipsCompareForEquality : Prop :=
  ∀ (x y : Reg) (nn : Byte) (ign : Nibble) (s : State),
    (∃ t, exec (.skipEqImm x nn) s = .next t ∧ SkipsWhen s t (s.reg x = nn)) ∧
    (∃ t, exec (.skipNeqImm x nn) s = .next t ∧ SkipsWhen s t (s.reg x ≠ nn)) ∧
    (∃ t, exec (.skipEqReg x y ign) s = .next t ∧ SkipsWhen s t (s.reg x = s.reg y)) ∧
    (∃ t, exec (.skipNeqReg x y ign) s = .next t ∧ SkipsWhen s t (s.reg x ≠ s.reg y))

/-- The key skips test bit `V[X]` of the pad latch when `V[X]` is at most 15; above 15 both raise KeyIndexOutOfRange
and change nothing else (45_family_E_keys.md R160, R161, R162; the spec's decisions D11, D12, D16). -/
def Obligations.KeySkipsTestOneKey : Prop :=
  ∀ (x : Reg) (s : State),
    ((s.reg x).toNat ≤ 15 →
      (∃ t, exec (.skipKeyPressed x) s = .next t ∧
        SkipsWhen s t (s.keys.toNat / 2 ^ (s.reg x).toNat % 2 = 1)) ∧
      (∃ t, exec (.skipKeyNotPressed x) s = .next t ∧
        SkipsWhen s t (s.keys.toNat / 2 ^ (s.reg x).toNat % 2 = 0))) ∧
    (15 < (s.reg x).toNat →
      exec (.skipKeyPressed x) s = .next { s with fault := .keyIndexOutOfRange, halted := true } ∧
      exec (.skipKeyNotPressed x) s = .next { s with fault := .keyIndexOutOfRange, halted := true })

/-! ## Registers -/

/-- LoadImm writes `NN`, AddImm the sum modulo 256, and Move the source; no flag, nothing else; and their encodings
(41_family_3_to_7_skip_imm.md R113, R114, 42_family_8_alu.md R120). -/
def Obligations.LoadsAndPlainSums : Prop :=
  (EncodedAs 0xF000 0x6000 (fun w => .loadImm (fieldX w) (fieldNN w)) ∧
    EncodedAs 0xF000 0x7000 (fun w => .addImm (fieldX w) (fieldNN w)) ∧
    EncodedAs 0xF00F 0x8000 (fun w => .move (fieldX w) (fieldY w))) ∧
  ∀ (x y : Reg) (nn : Byte) (s : State),
    (∃ t, exec (.loadImm x nn) s = .next t ∧ WritesReg s t x nn.toNat) ∧
    (∃ t, exec (.addImm x nn) s = .next t ∧ WritesReg s t x (((s.reg x).toNat + nn.toNat) % 256)) ∧
    (∃ t, exec (.move x y) s = .next t ∧ WritesReg s t x (s.reg y).toNat)

/-- Or, And and Xor write the bitwise result of `V[X]` and `V[Y]` to `V[X]` and nothing else, `VF` included; and
their encodings (42_family_8_alu.md R121, R122, R123). -/
def Obligations.LogicIsBitwise : Prop :=
  (EncodedAs 0xF00F 0x8001 (fun w => .or (fieldX w) (fieldY w)) ∧
    EncodedAs 0xF00F 0x8002 (fun w => .and (fieldX w) (fieldY w)) ∧
    EncodedAs 0xF00F 0x8003 (fun w => .xor (fieldX w) (fieldY w))) ∧
  ∀ (x y : Reg) (s : State),
    (∃ t, exec (.or x y) s = .next t ∧ WritesReg s t x ((s.reg x).toNat ||| (s.reg y).toNat)) ∧
    (∃ t, exec (.and x y) s = .next t ∧ WritesReg s t x ((s.reg x).toNat &&& (s.reg y).toNat)) ∧
    (∃ t, exec (.xor x y) s = .next t ∧ WritesReg s t x ((s.reg x).toNat ^^^ (s.reg y).toNat))

/-- AddCarry: the sum modulo 256 and the carry, from the values before the instruction, the flag last; and
its encoding (42_family_8_alu.md R124). -/
def Obligations.AddCarrySumsAndCarries : Prop :=
  EncodedAs 0xF00F 0x8004 (fun w => .addCarry (fieldX w) (fieldY w)) ∧
  ∀ (x y : Reg) (s : State), ∃ t, exec (.addCarry x y) s = .next t ∧
    WritesRegFlag s t x (((s.reg x).toNat + (s.reg y).toNat) % 256) (255 < (s.reg x).toNat + (s.reg y).toNat)

/-- SubBorrow and SubBorrowRev: the difference modulo 256 and the no-borrow flag, from the values before the
instruction, the flag last; and their encodings (42_family_8_alu.md R125, R127). -/
def Obligations.SubtractionsAndBorrow : Prop :=
  (EncodedAs 0xF00F 0x8005 (fun w => .subBorrow (fieldX w) (fieldY w)) ∧
    EncodedAs 0xF00F 0x8007 (fun w => .subBorrowRev (fieldX w) (fieldY w))) ∧
  ∀ (x y : Reg) (s : State),
    (∃ t, exec (.subBorrow x y) s = .next t ∧
      WritesRegFlag s t x (((s.reg x).toNat + 256 - (s.reg y).toNat) % 256) ((s.reg y).toNat ≤ (s.reg x).toNat)) ∧
    (∃ t, exec (.subBorrowRev x y) s = .next t ∧
      WritesRegFlag s t x (((s.reg y).toNat + 256 - (s.reg x).toNat) % 256) ((s.reg x).toNat ≤ (s.reg y).toNat))

/-- ShiftRight and ShiftLeft: `V[X]` halved or doubled modulo 256, the bit shifted out in `VF`, the flag last; the
`Y` field has no effect; and their encodings (42_family_8_alu.md R126, R128). -/
def Obligations.ShiftsMoveOneBitOut : Prop :=
  (EncodedAs 0xF00F 0x8006 (fun w => .shiftRight (fieldX w) (nibbleY w)) ∧
    EncodedAs 0xF00F 0x800E (fun w => .shiftLeft (fieldX w) (nibbleY w))) ∧
  ∀ (x : Reg) (ign : Nibble) (s : State),
    (∃ t, exec (.shiftRight x ign) s = .next t ∧
      WritesRegFlag s t x ((s.reg x).toNat / 2) ((s.reg x).toNat % 2 = 1)) ∧
    (∃ t, exec (.shiftLeft x ign) s = .next t ∧
      WritesRegFlag s t x (2 * (s.reg x).toNat % 256) (128 ≤ (s.reg x).toNat))

/-- Random writes `NN & rnd`, takes exactly one byte from the source, and changes nothing else (43_family_9_to_C.md
R143). `rnd` is the free value of log 2 (decision D26): nothing is known of it, so the bits that `NN` masks off are
0 and the others are the source's. -/
def Obligations.RandomMasksTheDrawnByte : Prop :=
  ∀ (x : Reg) (nn : Byte) (s : State), ∃ t,
    exec (.random x nn) s = .next t ∧ t = { s with v := t.v, rndDraws := s.rndDraws + 1 } ∧
    (∀ k, k < 8 → (t.reg x).getLsbD k = (nn.getLsbD k && (Config.rnd s.rndDraws).getLsbD k)) ∧
    ∀ r, r ≠ x → t.reg r = s.reg r

/-! ## Timers, key wait, index -/

/-- ReadDelay copies `DT` to `V[X]`, SetDelay and SetSound copy `V[X]` to `DT` and `ST`; no pulse, nothing else; and
their encodings (46_family_F_misc.md R170, R172, R173). -/
def Obligations.TimerTransfers : Prop :=
  (EncodedAs 0xF0FF 0xF007 (fun w => .readDelay (fieldX w)) ∧
    EncodedAs 0xF0FF 0xF015 (fun w => .setDelay (fieldX w)) ∧
    EncodedAs 0xF0FF 0xF018 (fun w => .setSound (fieldX w))) ∧
  ∀ (x : Reg) (s : State),
    (∃ t, exec (.readDelay x) s = .next t ∧ WritesReg s t x s.dt.toNat) ∧
    exec (.setDelay x) s = .next { s with dt := s.v[x] } ∧
    exec (.setSound x) s = .next { s with st := s.v[x] }

/-- WaitKey sets `AWAIT` and `WAITX` and changes nothing else, `V[X]` included (46_family_F_misc.md R171; the form
is the spec's decision D13). -/
def Obligations.WaitKeyOnlyStartsTheWait : Prop :=
  ∀ (x : Reg) (s : State), ∃ t,
    exec (.waitKey x) s = .next t ∧ t = { s with await := t.await, waitX := t.waitX } ∧
    t.await = true ∧ t.waitX = x

/-- AddIndex adds `V[X]` to `I` modulo 65536 with no flag; FontAddr sets `I` to 5 times `V[X]`, whatever `V[X]` is;
nothing else changes (46_family_F_misc.md R174, R175; the modulus is the spec's decision D4). -/
def Obligations.IndexArithmetic : Prop :=
  ∀ (x : Reg) (s : State),
    (∃ t, exec (.addIndex x) s = .next t ∧ t = { s with idx := t.idx } ∧
      t.idx.toNat = (s.idx.toNat + (s.reg x).toNat) % 65536) ∧
    (∃ t, exec (.fontAddr x) s = .next t ∧ t = { s with idx := t.idx } ∧
      t.idx.toNat = (s.reg x).toNat * 5)

/-! ## Memory -/

/-- BCD with `I + 2` inside memory stores the hundreds, tens and ones digit of `V[X]` at `I`, `I+1`, `I+2`, leaves
every other byte and all other state, `I` included; otherwise it raises MemoryOutOfRange and changes nothing else
(46_family_F_misc.md R176; the fault is the spec's decision D3). -/
def Obligations.BcdStoresThreeDigits : Prop :=
  ∀ (x : Reg) (s : State), s.mem.wf = true →
    (s.idx.toNat + 2 ≤ 0xFFF → ∃ t,
      exec (.bcd x) s = .next t ∧ t = { s with mem := t.mem } ∧
      (t.mem.read s.idx.toNat).toNat = (s.reg x).toNat / 100 ∧
      (t.mem.read (s.idx.toNat + 1)).toNat = (s.reg x).toNat / 10 % 10 ∧
      (t.mem.read (s.idx.toNat + 2)).toNat = (s.reg x).toNat % 10 ∧
      ∀ a, a < s.idx.toNat ∨ s.idx.toNat + 2 < a → t.mem.read a = s.mem.read a) ∧
    (0xFFF < s.idx.toNat + 2 →
      exec (.bcd x) s = .next { s with fault := .memoryOutOfRange, halted := true })

/-- StoreRegs with `I + X` inside memory stores `V[k]` at `I + k` for `k` from 0 to `X`, moves `I` on by `X + 1`,
leaves every other byte and all other state; otherwise it raises MemoryOutOfRange and changes nothing else
(46_family_F_misc.md R177; the fault is the spec's decision D3). -/
def Obligations.StoreRegsStoresTheRun : Prop :=
  ∀ (x : Reg) (s : State), s.mem.wf = true →
    (s.idx.toNat + x.val ≤ 0xFFF → ∃ t,
      exec (.storeRegs x) s = .next t ∧ t = { s with mem := t.mem, idx := t.idx } ∧
      (∀ k : Reg, k ≤ x → t.mem.read (s.idx.toNat + k.val) = s.reg k) ∧
      (∀ a, a < s.idx.toNat ∨ s.idx.toNat + x.val < a → t.mem.read a = s.mem.read a) ∧
      t.idx.toNat = s.idx.toNat + x.val + 1) ∧
    (0xFFF < s.idx.toNat + x.val →
      exec (.storeRegs x) s = .next { s with fault := .memoryOutOfRange, halted := true })

/-- LoadRegs with `I + X` inside memory loads `V[k]` from `I + k` for `k` from 0 to `X`, leaves the registers above
`X` and all of memory, and moves `I` on by `X + 1`; otherwise it raises MemoryOutOfRange and changes nothing else
(46_family_F_misc.md R178; the fault is the spec's decision D3). -/
def Obligations.LoadRegsLoadsTheRun : Prop :=
  ∀ (x : Reg) (s : State),
    (s.idx.toNat + x.val ≤ 0xFFF → ∃ t,
      exec (.loadRegs x) s = .next t ∧ t = { s with v := t.v, idx := t.idx } ∧
      (∀ k : Reg, k ≤ x → t.reg k = s.mem.read (s.idx.toNat + k.val)) ∧
      (∀ k : Reg, x < k → t.reg k = s.reg k) ∧
      t.idx.toNat = s.idx.toNat + x.val + 1) ∧
    (0xFFF < s.idx.toNat + x.val →
      exec (.loadRegs x) s = .next { s with fault := .memoryOutOfRange, halted := true })

/-- Storing `V0..VX` and then loading from the same address into any register file whatever gives the stored values
back, leaves the registers above `X`, and moves `I` on by `X + 1` in both directions (46_family_F_misc.md R177,
R178, the property the document tests). -/
def Obligations.StoreThenLoadRestoresTheRun : Prop :=
  ∀ (x : Reg) (s : State) (v : Vector Byte 16), s.mem.wf = true → s.idx.toNat + x.val ≤ 0xFFF →
    ∃ t u, exec (.storeRegs x) s = .next t ∧ exec (.loadRegs x) { t with v := v, idx := s.idx } = .next u ∧
      (∀ k : Reg, k ≤ x → u.reg k = s.reg k) ∧ (∀ k : Reg, x < k → u.reg k = v[k]) ∧
      t.idx.toNat = s.idx.toNat + x.val + 1 ∧ u.idx = t.idx ∧ u.mem = t.mem

/-- A store by StoreRegs or BCD over the next instruction is seen by the very next fetch, whichever of its two bytes
the store reached, both, one or none: each byte of the word is the stored one where the store reached its address,
else the one that was there (20_memory.md R62, 70_reset_and_hazards.md R237). -/
def Obligations.FetchSeesTheLastStore : Prop :=
  ∀ (x : Reg) (s : State), s.mem.wf = true → s.pc.toNat ≤ 0xFFE →
    (s.idx.toNat + x.val ≤ 0xFFF → ∃ t, exec (.storeRegs x) s = .next t ∧
      FetchSees s t (x.val + 1) (fun k => (s.reg (Fin.ofNat 16 k)).toNat)) ∧
    (s.idx.toNat + 2 ≤ 0xFFF → ∃ t, exec (.bcd x) s = .next t ∧
      FetchSees s t 3 (fun k => (s.reg x).toNat / 10 ^ (2 - k) % 10))

/-! ## DrawSprite -/

/-- DrawSprite with its rows inside memory inverts exactly the pixels under a set sprite bit, coordinates wrapped,
sets `VF` to 1 exactly when one of those pixels was lit, and changes nothing else; with a row above 0xFFF it raises
MemoryOutOfRange and changes nothing else; with no row it cannot fault (44_family_D_draw.md R150, R151, R152; which
bit is the left column is the spec's decision D7, log 10; the fault is decision D3). -/
def Obligations.DrawSpriteXorsTheSprite : Prop :=
  ∀ (x y : Reg) (n : Fin 16) (s : State),
    (n.val = 0 ∨ s.idx.toNat + n.val - 1 ≤ 0xFFF → ∃ t,
      exec (.drawSprite x y n) s = .next t ∧ t = { s with v := t.v, disp := t.disp } ∧
      (∀ px py, px < 64 → py < 32 →
        (SpriteOn s x y n px py → pixelOn t.disp px py = !pixelOn s.disp px py) ∧
        (¬ SpriteOn s x y n px py → pixelOn t.disp px py = pixelOn s.disp px py)) ∧
      ((∃ px py, px < 64 ∧ py < 32 ∧ SpriteOn s x y n px py ∧ pixelOn s.disp px py = true) → t.reg 15 = 1) ∧
      (¬ (∃ px py, px < 64 ∧ py < 32 ∧ SpriteOn s x y n px py ∧ pixelOn s.disp px py = true) → t.reg 15 = 0) ∧
      ∀ r, r ≠ 15 → t.reg r = s.reg r) ∧
    (0 < n.val → 0xFFF < s.idx.toNat + n.val - 1 →
      exec (.drawSprite x y n) s = .next { s with fault := .memoryOutOfRange, halted := true })

/-- Drawing the same sprite twice at the same place, with nothing drawn between, restores the display, and the
second draw reports a collision exactly when the sprite has a set bit on a pixel that was off before the first
(44_family_D_draw.md R150). -/
def Obligations.DrawingTwiceRestoresTheDisplay : Prop :=
  ∀ (x y : Reg) (n : Fin 16) (s t : State),
    n.val = 0 ∨ s.idx.toNat + n.val - 1 ≤ 0xFFF →
    exec (.drawSprite x y n) s = .next t → t.reg x = s.reg x → t.reg y = s.reg y →
    ∃ u, exec (.drawSprite x y n) t = .next u ∧ u.disp = s.disp ∧
      (u.reg 15 = 1 ↔ ∃ px py, px < 64 ∧ py < 32 ∧ SpriteOn s x y n px py ∧ pixelOn s.disp px py = false)

/-! ## Whole-machine rules over all instructions -/

/-- Every element of the state is written by an instruction only where 10_state.md R36 lists it ("written by
instruction"): for every instruction outside an element's list the element is unchanged. `KEYS`, `PAUSED`, `IR` and
the model's own fields `pending`, `pickDraws`, `outs` are written by no handler. -/
def Obligations.InstructionsWriteOnlyWhatIsListed : Prop :=
  ∀ (i : Instr) (s t : State), exec i s = .next t →
    (writesV i = false → t.v = s.v) ∧ (writesI i = false → t.idx = s.idx) ∧
    (writesPc i = false → t.pc = s.pc) ∧ (writesStack i = false → t.stk = s.stk ∧ t.sp = s.sp) ∧
    (writesDisp i = false → t.disp = s.disp) ∧ (writesMem i = false → t.mem = s.mem) ∧
    (writesDt i = false → t.dt = s.dt) ∧ (writesSt i = false → t.st = s.st) ∧
    (writesAwait i = false → t.await = s.await ∧ t.waitX = s.waitX) ∧
    (canFault i = false → t.halted = s.halted ∧ t.fault = s.fault) ∧
    (takesRnd i = false → t.rndDraws = s.rndDraws) ∧
    t.keys = s.keys ∧ t.paused = s.paused ∧ t.ir = s.ir ∧
    t.pending = s.pending ∧ t.pickDraws = s.pickDraws ∧ t.outs = s.outs

/-- Every instruction completes in every state but those of its one fault condition, in which it sets `FAULT` and
`HALTED` and makes none of its own writes; there is no other fault (60_exceptions.md R200 to R204, R207, R209; codes
and the conditions 3 and 4 are the spec's decisions D3, D11, D16). -/
def Obligations.FaultsArePreciseAndExactlyThoseListed : Prop :=
  ∀ (i : Instr) (s : State),
    (faultOf s i = .none → ∃ t, exec i s = .next t ∧ t.fault = s.fault ∧ t.halted = s.halted) ∧
    (faultOf s i ≠ .none → exec i s = .next { s with fault := faultOf s i, halted := true })

/-- The six flag instructions leave `VF` 0 or 1 on every execution that raises no fault; every other instruction
leaves `VF` unchanged unless it names `VF` as an ordinary destination; and a register other than `VF` changes only
where the instruction names it as its destination (10_state.md R21). -/
def Obligations.OnlySixInstructionsWriteTheFlag : Prop :=
  ∀ (i : Instr) (s t : State), exec i s = .next t →
    (writesFlag i = true → faultOf s i = .none → t.reg 15 = 0 ∨ t.reg 15 = 1) ∧
    (writesFlag i = false → namesDest 15 i = false → t.reg 15 = s.reg 15) ∧
    (∀ r, r ≠ 15 → namesDest r i = false → t.reg r = s.reg r)

/-- No instruction reads `IR` (10_state.md R31), and none reads `ST` (10_state.md R26): with another value there the
instruction does the same, and the value stays unless the instruction is SetSound, which writes `ST`. -/
def Obligations.NoInstructionReadsIrOrSt : Prop :=
  ∀ (i : Instr) (s t : State) (a : Word) (b : Byte), exec i s = .next t →
    exec i { s with ir := a, st := b } = .next { t with ir := a, st := if writesSt i then t.st else b }

/-- Stack entries at or above `SP` are unobservable: two states that differ only there take steps that agree, for
every event (10_state.md R24, the spec's decision D30). -/
def Obligations.StaleStackEntriesAreUnobservable : Prop :=
  ∀ s t : State, StackAgree s t → ResultAgree (step s) (step t)

/-! ## The other events -/

/-- TimerTick, when the machine runs, takes 1 off each timer that is not 0, emits one pulse exactly when `ST` was
above 0, and touches nothing else; when paused it is not enabled (60_exceptions.md R212, R213; the spec's decisions
D15, D21; that the event is then dropped is log 5). -/
def Obligations.TimerTickTicksBothTimers : Prop :=
  ∀ (s : State) (rest : List Event), s.pending = .timerTick :: rest → s.halted = false →
    (s.paused = false → ∃ t, step s = .next t ∧
      t = { s with pending := rest, dt := t.dt, st := t.st, outs := t.outs } ∧
      t.dt.toNat = s.dt.toNat - 1 ∧ t.st.toNat = s.st.toNat - 1 ∧
      (s.st ≠ 0 → t.outs = .sndPulse :: s.outs) ∧ (s.st = 0 → t.outs = s.outs)) ∧
    (s.paused = true → step s = .next { s with pending := rest })

/-- `n` ticks in a row leave `DT` and `ST` at `max(0, value - n)` and emit exactly `min(n, ST)` pulses; all else is
unchanged (60_exceptions.md R213: after `ST <- v` exactly `v` pulses follow; the spec's decision D21). -/
def Obligations.TicksCountDownAndPulse : Prop :=
  ∀ (n : Nat) (s : State), s.pending = List.replicate n .timerTick → s.halted = false → s.paused = false →
    ∃ t, core.run n s = .next t ∧
      t = { s with pending := [], dt := t.dt, st := t.st, outs := t.outs } ∧
      t.dt.toNat = s.dt.toNat - n ∧ t.st.toNat = s.st.toNat - n ∧
      t.outs = List.replicate (min n s.st.toNat) .sndPulse ++ s.outs

/-- PadWrite replaces the latch, paused or not. It completes a waiting WaitKey exactly when some key goes down
against the old latch: the wait ends, `V[WAITX]` takes the number of the key that the free choice of this completion
picks among the keys that went down, one of them, and nothing else changes (60_exceptions.md R214, R215; the spec's
decisions D12, D13). The choice is the opaque value of log 3 (decision D14): which of several keys it picks is not
known, and that it can fall on each of them is KeyWaitMayReportAnyNewKey. -/
def Obligations.PadWriteLatchesAndCompletes : Prop :=
  ∀ (s : State) (m : Word) (rest : List Event), s.pending = .padWrite m :: rest → s.halted = false →
    (s.await = false ∨ (∀ k, k < 16 → m.getLsbD k = true → s.keys.getLsbD k = true) →
      step s = .next { s with pending := rest, keys := m }) ∧
    (s.await = true → (∃ k, k < 16 ∧ m.getLsbD k = true ∧ s.keys.getLsbD k = false) →
      ∃ (k : Key) (t : State), step s = .next t ∧
        k = pickKey (Config.waitKeyPick s.pickDraws (m &&& ~~~s.keys)) (keysOf (m &&& ~~~s.keys)) ∧
        m.getLsbD k.val = true ∧ s.keys.getLsbD k.val = false ∧
        t = { s with pending := rest, keys := m, v := t.v, await := false, pickDraws := s.pickDraws + 1 } ∧
        (t.reg s.waitX).toNat = k.val ∧ ∀ r, r ≠ s.waitX → t.reg r = s.reg r)

/-- The key that a completed wait reports is `pickKey` of a free choice and of the keys that went down together
(PadWriteLatchesAndCompletes); the choice decides it and can fall on every one of those keys, and on no other, so no
key is preferred (60_exceptions.md R215, decision D14, log 3). -/
def Obligations.KeyWaitMayReportAnyNewKey : Prop :=
  ∀ (newly : Word) (k : Key), newly ≠ 0 →
    (newly.getLsbD k.val = true ↔ ∃ choice, pickKey choice (keysOf newly) = k)

/-- HostHalt sets `HALTED` in every state; HostPauseToggle inverts `PAUSED` when the machine is not halted; neither
changes anything else (60_exceptions.md R216, R217). -/
def Obligations.HostHaltAndPauseToggle : Prop :=
  ∀ (s : State) (rest : List Event),
    (s.pending = .hostHalt :: rest → step s = .next { s with pending := rest, halted := true }) ∧
    (s.pending = .hostPauseToggle :: rest → s.halted = false →
      step s = .next { s with pending := rest, paused := !s.paused })

/-- Load of an image of at most 3584 bytes, in every state, leaves the state of 10_state.md R35: every register,
timer, flag, stack entry and pixel 0, `PC` 0x200, memory the font, the image at 0x200 and 0 elsewhere
(70_reset_and_hazards.md R230; the zeros of `KEYS`, `IR`, `AWAIT`, `WAITX`, `FAULT` are the spec's decision D18, log 9,
the cleared memory D10, log 8, the font free, log 1; that the fields of the surroundings stay is log 12). -/
def Obligations.LoadResetsEverything : Prop :=
  ∀ (s : State) (img : List Byte) (rest : List Event),
    s.pending = .load img :: rest → img.length ≤ 3584 →
    ∃ t, step s = .next t ∧
      (∀ r, t.reg r = 0) ∧ t.idx = 0 ∧ t.pc = 0x200 ∧ t.sp.val = 0 ∧ (∀ k : Fin 16, t.stk[k] = 0) ∧
      t.dt = 0 ∧ t.st = 0 ∧ (∀ x y, pixelOn t.disp x y = false) ∧ t.keys = 0 ∧ t.halted = false ∧
      t.paused = false ∧ t.ir = 0 ∧ t.await = false ∧ t.waitX = 0 ∧ t.fault = .none ∧
      (∀ j : Fin 80, t.mem.read j.val = Config.font j) ∧
      (∀ a, 80 ≤ a → a < 0x200 → t.mem.read a = 0) ∧
      (∀ (j : Nat) (h : j < img.length), t.mem.read (0x200 + j) = img[j]) ∧
      (∀ a, 0x200 + img.length ≤ a → a ≤ 0xFFF → t.mem.read a = 0) ∧
      t.mem.wf = true ∧ t.pending = rest ∧ t.rndDraws = s.rndDraws ∧ t.pickDraws = s.pickDraws ∧ t.outs = s.outs

/-- Load of an image above 3584 bytes reports ImageTooLarge and changes nothing (70_reset_and_hazards.md R231,
60_exceptions.md R206; the spec's decision D19; the report is recorded in the model's `outs`, log 12). -/
def Obligations.OversizedLoadChangesNothing : Prop :=
  ∀ (s : State) (img : List Byte) (rest : List Event),
    s.pending = .load img :: rest → 3584 < img.length →
    step s = .next { s with pending := rest, outs := .imageTooLarge :: s.outs }

/-- A halted machine is frozen: Step, TimerTick, PadWrite and HostPauseToggle stop it, HostHalt and a refused Load
leave all of its state, `FAULT` included, and only a Load that succeeds restarts it (60_exceptions.md R208,
70_reset_and_hazards.md R246, U22; the spec's decision D22; the stop is log 5). -/
def Obligations.HaltedMachineIsFrozenUntilLoad : Prop :=
  ∀ s : State, s.halted = true →
    (∀ t, step s = .next t →
      t = { s with pending := t.pending, outs := t.outs } ∨
      ∃ img rest, s.pending = .load img :: rest ∧ img.length ≤ 3584 ∧ t.fault = .none ∧ t.halted = false) ∧
    (∀ e rest, s.pending = e :: rest → e = .step ∨ e = .timerTick ∨ (∃ m, e = .padWrite m) ∨ e = .hostPauseToggle →
      step s = .fault (stopReason s.fault))

/-- No event but Step and Load writes `PC`, `I`, the stack, the display, memory or `IR`: nothing outside the
instruction stream redirects the program (60_exceptions.md R210, 10_state.md R36). -/
def Obligations.NoOutsideEventRedirectsTheProgram : Prop :=
  ∀ (s t : State) (e : Event) (rest : List Event), s.pending = e :: rest → step s = .next t →
    e ≠ .step → (∀ img, e ≠ .load img) →
    t.pc = s.pc ∧ t.idx = s.idx ∧ t.stk = s.stk ∧ t.sp = s.sp ∧ t.disp = s.disp ∧ t.mem = s.mem ∧ t.ir = s.ir ∧
      t.waitX = s.waitX ∧ t.fault = s.fault ∧ t.rndDraws = s.rndDraws ∧ ∀ r, r ≠ s.waitX → t.reg r = s.reg r

/-- A timer rises in a step only when the step runs SetDelay or SetSound, and then to the value of the register it
names; no event raises it (70_reset_and_hazards.md R240, 10_state.md R26). -/
def Obligations.TimersRiseOnlyBySetDelayAndSetSound : Prop :=
  ∀ s t : State, step s = .next t →
    (s.dt.toNat < t.dt.toNat → ∃ x, fetchWord s = some (encode (.setDelay x)) ∧ t.dt = s.reg x) ∧
    (s.st.toNat < t.st.toNat → ∃ x, fetchWord s = some (encode (.setSound x)) ∧ t.st = s.reg x)

/-! ## Reset, invariant, the end of a program -/

/-- The state after reset: `PC` 0x200, running, every register, timer, stack entry and pixel 0, the stack empty,
memory the font (free, log 1) and zeros up to its last address (10_state.md R35, 70_reset_and_hazards.md R232, R234;
the zeros of memory are the spec's decision D10, log 8; the zeros of `KEYS`, `IR`, `AWAIT`, `WAITX`, `FAULT` are the
spec's decision D18, log 9; that reset is a Load of the empty image is log 7). -/
def Obligations.ResetIsTheLoadedState : Prop :=
  State.reset.pc = 0x200 ∧ State.reset.sp.val = 0 ∧ State.reset.idx = 0 ∧
  (∀ r, State.reset.reg r = 0) ∧ (∀ k : Fin 16, State.reset.stk[k] = 0) ∧
  State.reset.dt = 0 ∧ State.reset.st = 0 ∧ (∀ x y, pixelOn State.reset.disp x y = false) ∧
  runState State.reset = .running ∧ State.reset.keys = 0 ∧ State.reset.ir = 0 ∧ State.reset.waitX = 0 ∧
  State.reset.fault = .none ∧
  (∀ j : Fin 80, State.reset.mem.read j.val = Config.font j) ∧
  (∀ a, 80 ≤ a → a ≤ 0xFFF → State.reset.mem.read a = 0)

/-- The invariant holds after reset. -/
def Obligations.ResetSatisfiesTheInvariant : Prop := Inv State.reset

/-- Every step, whatever its event and instruction, keeps the invariant: memory stays canonical, `FAULT` is set only
in a halted machine, `PC` stays at most 0x10FE and return addresses at most 0x1000, so that no addition to `PC` ever
wraps (10_state.md R23, 60_exceptions.md R207). -/
def Obligations.EveryStepKeepsTheInvariant : Prop :=
  ∀ s t : State, Inv s → step s = .next t → Inv t

/-- A running program at a self-jump stays there: the step leaves all state but `IR` unchanged
(70_reset_and_hazards.md R247). -/
def Obligations.SelfJumpChangesOnlyIr : Prop :=
  ∀ s : State, AtSelfJump s → s.halted = false → s.paused = false → s.await = false → s.pending = [] →
    ∃ t, step s = .next t ∧ t = { s with ir := t.ir } ∧ AtSelfJump t

/-- A program that has reached a self-jump never dies, however long it runs with no other event
(70_reset_and_hazards.md R247, 60_exceptions.md R208). -/
def Obligations.SelfJumpNeverDies : Prop :=
  ∀ (n : Nat) (s : State), AtSelfJump s → s.halted = false → s.paused = false → s.await = false →
    s.pending = [] → s.fault = .none → SafeFor n s
end

