-- ==== Sys2Proof/Laws/Encoding.lean ====
section
/-! SUPPORT. The fields of a word put together by a format are the ones it was put together from (30_encoding.md
R71, R72), and a word is put together from its own fields. -/

namespace Sys2Proof

theorem formatA_getLsbD (f : Nibble) (nnn : Addr) (i : Nat) :
    (formatA f nnn).getLsbD i = if i < 12 then nnn.getLsbD i else f.getLsbD (i - 12) := by
  have := BitVec.getLsbD_append (x := f) (y := nnn) (i := i)
  exact this

theorem formatXI_getLsbD (f x : Nibble) (nn : Byte) (i : Nat) :
    (formatXI f x nn).getLsbD i =
      if i < 8 then nn.getLsbD i else if i < 12 then x.getLsbD (i - 8) else f.getLsbD (i - 12) := by
  have h1 := BitVec.getLsbD_append (x := f ++ x) (y := nn) (i := i)
  have h2 := BitVec.getLsbD_append (x := f) (y := x) (i := i - 8)
  refine (h1 : (formatXI f x nn).getLsbD i = _).trans ?_
  rw [h2]
  split
  · rfl
  · have : (i - 8 < 4) ↔ i < 12 := by omega
    simp only [this, Nat.sub_sub]

theorem formatXY_getLsbD (f x y n : Nibble) (i : Nat) :
    (formatXY f x y n).getLsbD i =
      if i < 4 then n.getLsbD i else if i < 8 then y.getLsbD (i - 4)
      else if i < 12 then x.getLsbD (i - 8) else f.getLsbD (i - 12) := by
  have h0 := BitVec.getLsbD_append (x := f ++ x ++ y) (y := n) (i := i)
  have h1 := BitVec.getLsbD_append (x := f ++ x) (y := y) (i := i - 4)
  have h2 := BitVec.getLsbD_append (x := f) (y := x) (i := i - 4 - 4)
  refine (h0 : (formatXY f x y n).getLsbD i = _).trans ?_
  rw [h1, h2]
  split
  · rfl
  · have e1 : (i - 4 < 4) ↔ i < 8 := by omega
    have e2 : (i - 8 < 4) ↔ i < 12 := by omega
    simp only [Nat.sub_sub, Nat.reduceAdd, e1, e2]

/-! ## The fields of each format -/

theorem fieldF_formatA (f : Nibble) (nnn : Addr) : fieldF (formatA f nnn) = f := by
  apply BitVec.eq_of_getLsbD_eq
  intro i hi
  simp only [fieldF, BitVec.getLsbD_extractLsb', formatA_getLsbD, hi, decide_true, Bool.true_and]
  simp

theorem fieldNNN_formatA (f : Nibble) (nnn : Addr) : fieldNNN (formatA f nnn) = nnn := by
  apply BitVec.eq_of_getLsbD_eq
  intro i hi
  simp [fieldNNN, formatA_getLsbD, hi]

theorem fieldF_formatXI (f x : Nibble) (nn : Byte) : fieldF (formatXI f x nn) = f := by
  apply BitVec.eq_of_getLsbD_eq
  intro i hi
  have h1 : ¬ 12 + i < 8 := by omega
  simp [fieldF, formatXI_getLsbD, hi, h1]

theorem nibbleX_formatXI (f x : Nibble) (nn : Byte) : nibbleX (formatXI f x nn) = x := by
  apply BitVec.eq_of_getLsbD_eq
  intro i hi
  have h2 : 8 + i < 12 := by omega
  simp [nibbleX, formatXI_getLsbD, hi, h2]

theorem fieldNN_formatXI (f x : Nibble) (nn : Byte) : fieldNN (formatXI f x nn) = nn := by
  apply BitVec.eq_of_getLsbD_eq
  intro i hi
  simp [fieldNN, formatXI_getLsbD, hi]

theorem fieldF_formatXY (f x y n : Nibble) : fieldF (formatXY f x y n) = f := by
  apply BitVec.eq_of_getLsbD_eq
  intro i hi
  have h1 : ¬ 12 + i < 4 := by omega
  have h2 : ¬ 12 + i < 8 := by omega
  simp [fieldF, formatXY_getLsbD, hi, h1, h2]

theorem nibbleX_formatXY (f x y n : Nibble) : nibbleX (formatXY f x y n) = x := by
  apply BitVec.eq_of_getLsbD_eq
  intro i hi
  have h1 : ¬ 8 + i < 4 := by omega
  have h2 : 8 + i < 12 := by omega
  simp [nibbleX, formatXY_getLsbD, hi, h1, h2]

theorem nibbleY_formatXY (f x y n : Nibble) : nibbleY (formatXY f x y n) = y := by
  apply BitVec.eq_of_getLsbD_eq
  intro i hi
  have h2 : 4 + i < 8 := by omega
  simp [nibbleY, formatXY_getLsbD, hi, h2]

theorem fieldN_formatXY (f x y n : Nibble) : fieldN (formatXY f x y n) = n := by
  apply BitVec.eq_of_getLsbD_eq
  intro i hi
  simp [fieldN, formatXY_getLsbD, hi]

/-! ## A word from its own fields -/

theorem formatA_fields (w : Word) : formatA (fieldF w) (fieldNNN w) = w := by
  apply BitVec.eq_of_getLsbD_eq
  intro i hi
  simp only [formatA_getLsbD, fieldF, fieldNNN, BitVec.getLsbD_extractLsb']
  split
  · simp [*]
  · have h1 : i - 12 < 4 := by omega
    have h2 : 12 + (i - 12) = i := by omega
    simp [h1, h2]

theorem formatXI_fields (w : Word) : formatXI (fieldF w) (nibbleX w) (fieldNN w) = w := by
  apply BitVec.eq_of_getLsbD_eq
  intro i hi
  simp only [formatXI_getLsbD, fieldF, nibbleX, fieldNN, BitVec.getLsbD_extractLsb']
  split
  · simp [*]
  · split
    · have h1 : i - 8 < 4 := by omega
      have h2 : 8 + (i - 8) = i := by omega
      simp [h1, h2]
    · have h1 : i - 12 < 4 := by omega
      have h2 : 12 + (i - 12) = i := by omega
      simp [h1, h2]

theorem formatXY_fields (w : Word) : formatXY (fieldF w) (nibbleX w) (nibbleY w) (fieldN w) = w := by
  apply BitVec.eq_of_getLsbD_eq
  intro i hi
  simp only [formatXY_getLsbD, fieldF, nibbleX, nibbleY, fieldN, BitVec.getLsbD_extractLsb']
  split
  · simp [*]
  · split
    · have h1 : i - 4 < 4 := by omega
      have h2 : 4 + (i - 4) = i := by omega
      simp [h1, h2]
    · split
      · have h1 : i - 8 < 4 := by omega
        have h2 : 8 + (i - 8) = i := by omega
        simp [h1, h2]
      · have h1 : i - 12 < 4 := by omega
        have h2 : 12 + (i - 12) = i := by omega
        simp [h1, h2]

/-! ## Register numbers and their nibbles -/

@[simp] theorem nibbleNum_numNibble (x : Fin 16) : nibbleNum (numNibble x) = x := by
  revert x; decide

@[simp] theorem numNibble_nibbleNum (b : Nibble) : numNibble (nibbleNum b) = b := by
  revert b; decide

/-! ## The masks of the opcode map (30_encoding.md R74) -/

theorem formatA_mask (f : Nibble) (nnn : Addr) : formatA f nnn &&& 0xF000#16 = formatA f 0 := by
  have hm : 0xF000#16 = formatA 0xF 0 := by decide
  rw [hm]
  apply BitVec.eq_of_getLsbD_eq
  intro i hi
  simp only [BitVec.getLsbD_and, formatA_getLsbD]
  split
  · simp
  · have : i - 12 = 0 ∨ i - 12 = 1 ∨ i - 12 = 2 ∨ i - 12 = 3 := by omega
    rcases this with h | h | h | h <;> simp [h]

theorem formatXI_maskF (f x : Nibble) (nn : Byte) : formatXI f x nn &&& 0xF000#16 = formatXI f 0 0 := by
  have hm : 0xF000#16 = formatXI 0xF 0 0 := by decide
  rw [hm]
  apply BitVec.eq_of_getLsbD_eq
  intro i hi
  simp only [BitVec.getLsbD_and, formatXI_getLsbD]
  split
  · simp
  · split
    · simp
    · have : i - 12 = 0 ∨ i - 12 = 1 ∨ i - 12 = 2 ∨ i - 12 = 3 := by omega
      rcases this with h | h | h | h <;> simp [h]

theorem formatXI_mask (f x : Nibble) (nn : Byte) : formatXI f x nn &&& 0xF0FF#16 = formatXI f 0 nn := by
  have hm : 0xF0FF#16 = formatXI 0xF 0 0xFF := by decide
  rw [hm]
  apply BitVec.eq_of_getLsbD_eq
  intro i hi
  simp only [BitVec.getLsbD_and, formatXI_getLsbD]
  split
  · have : i = 0 ∨ i = 1 ∨ i = 2 ∨ i = 3 ∨ i = 4 ∨ i = 5 ∨ i = 6 ∨ i = 7 := by omega
    rcases this with h | h | h | h | h | h | h | h <;> simp [h]
  · split
    · simp
    · have : i - 12 = 0 ∨ i - 12 = 1 ∨ i - 12 = 2 ∨ i - 12 = 3 := by omega
      rcases this with h | h | h | h <;> simp [h]

theorem formatXY_maskF (f x y n : Nibble) : formatXY f x y n &&& 0xF000#16 = formatXY f 0 0 0 := by
  have hm : 0xF000#16 = formatXY 0xF 0 0 0 := by decide
  rw [hm]
  apply BitVec.eq_of_getLsbD_eq
  intro i hi
  simp only [BitVec.getLsbD_and, formatXY_getLsbD]
  split
  · simp
  · split
    · simp
    · split
      · simp
      · have : i - 12 = 0 ∨ i - 12 = 1 ∨ i - 12 = 2 ∨ i - 12 = 3 := by omega
        rcases this with h | h | h | h <;> simp [h]

theorem formatXY_mask (f x y n : Nibble) : formatXY f x y n &&& 0xF00F#16 = formatXY f 0 0 n := by
  have hm : 0xF00F#16 = formatXY 0xF 0 0 0xF := by decide
  rw [hm]
  apply BitVec.eq_of_getLsbD_eq
  intro i hi
  simp only [BitVec.getLsbD_and, formatXY_getLsbD]
  split
  · have : i = 0 ∨ i = 1 ∨ i = 2 ∨ i = 3 := by omega
    rcases this with h | h | h | h <;> simp [h]
  · split
    · simp
    · split
      · simp
      · have : i - 12 = 0 ∨ i - 12 = 1 ∨ i - 12 = 2 ∨ i - 12 = 3 := by omega
        rcases this with h | h | h | h <;> simp [h]

/-! ## A word in memory (20_memory.md R54) -/

/-- The two bytes of a word, put together big-endian, are the word. -/
@[simp] theorem wordOfBytes_bytes (w : Word) : wordOfBytes (firstByte w) (secondByte w) = w := by
  apply BitVec.eq_of_getLsbD_eq
  intro i hi
  have h := BitVec.getLsbD_append (x := firstByte w) (y := secondByte w) (i := i)
  refine (h : (wordOfBytes _ _).getLsbD i = _).trans ?_
  simp only [firstByte, secondByte, BitVec.getLsbD_extractLsb']
  split
  · simp [*]
  · have h1 : i - 8 < 8 := by omega
    have h2 : 8 + (i - 8) = i := by omega
    simp [h1, h2]

/-! ## The fields as numbers (00_scope.md R12) -/

theorem fieldF_toNat (w : Word) : (fieldF w).toNat = w.toNat / 4096 := by
  have := w.isLt
  simp [fieldF, BitVec.extractLsb'_toNat, Nat.shiftRight_eq_div_pow]; omega

theorem fieldNN_toNat (w : Word) : (fieldNN w).toNat = w.toNat % 256 := by
  simp [fieldNN]

theorem fieldN_toNat (w : Word) : (fieldN w).toNat = w.toNat % 16 := by
  simp [fieldN]

/-! ## What the test of a row says of the fields (30_encoding.md R74) -/

theorem maskF_iff {w : Word} {f : Nibble} : w &&& 0xF000#16 = formatA f 0 ↔ fieldF w = f := by
  rw [← formatA_fields w, formatA_mask, fieldF_formatA]
  exact ⟨fun h => by simpa [fieldF_formatA] using congrArg fieldF h, fun h => by rw [h]⟩

theorem maskFNN_iff {w : Word} {f : Nibble} {nn : Byte} :
    w &&& 0xF0FF#16 = formatXI f 0 nn ↔ fieldF w = f ∧ fieldNN w = nn := by
  rw [← formatXI_fields w, formatXI_mask, fieldF_formatXI, fieldNN_formatXI]
  refine ⟨fun h => ⟨?_, ?_⟩, fun ⟨h, h'⟩ => by rw [h, h']⟩
  · simpa [fieldF_formatXI] using congrArg fieldF h
  · simpa [fieldNN_formatXI] using congrArg fieldNN h

theorem maskFN_iff {w : Word} {f n : Nibble} :
    w &&& 0xF00F#16 = formatXY f 0 0 n ↔ fieldF w = f ∧ fieldN w = n := by
  rw [← formatXY_fields w, formatXY_mask, fieldF_formatXY, fieldN_formatXY]
  refine ⟨fun h => ⟨?_, ?_⟩, fun ⟨h, h'⟩ => by rw [h, h']⟩
  · simpa [fieldF_formatXY] using congrArg fieldF h
  · simpa [fieldN_formatXY] using congrArg fieldN h

/-! ## An encoded word passes the test of its row (30_encoding.md R74) -/

theorem covers_formatA {m : String} {f : Nibble} {nnn : Addr} {v : Word} (h : formatA f 0 = v) :
    MapRow.covers ⟨m, 0xF000, v⟩ (formatA f nnn) = true :=
  beq_iff_eq.mpr ((formatA_mask f nnn).trans h)

theorem covers_formatXI {m : String} {f x : Nibble} {nn : Byte} {v : Word} (h : formatXI f 0 0 = v) :
    MapRow.covers ⟨m, 0xF000, v⟩ (formatXI f x nn) = true :=
  beq_iff_eq.mpr ((formatXI_maskF f x nn).trans h)

theorem covers_formatXI_low {m : String} {f x : Nibble} {nn : Byte} {v : Word} (h : formatXI f 0 nn = v) :
    MapRow.covers ⟨m, 0xF0FF, v⟩ (formatXI f x nn) = true :=
  beq_iff_eq.mpr ((formatXI_mask f x nn).trans h)

theorem covers_formatXY {m : String} {f x y n : Nibble} {v : Word} (h : formatXY f 0 0 0 = v) :
    MapRow.covers ⟨m, 0xF000, v⟩ (formatXY f x y n) = true :=
  beq_iff_eq.mpr ((formatXY_maskF f x y n).trans h)

theorem covers_formatXY_low {m : String} {f x y n : Nibble} {v : Word} (h : formatXY f 0 0 n = v) :
    MapRow.covers ⟨m, 0xF00F, v⟩ (formatXY f x y n) = true :=
  beq_iff_eq.mpr ((formatXY_mask f x y n).trans h)

/-! ## The decoder, family by family (30_encoding.md R74) -/

/-- The sixteen values of an opcode family, or of any nibble. -/
theorem nibble_cases (f : Nibble) : f = 0 ∨ f = 1 ∨ f = 2 ∨ f = 3 ∨ f = 4 ∨ f = 5 ∨ f = 6 ∨ f = 7 ∨ f = 8 ∨
    f = 9 ∨ f = 10 ∨ f = 11 ∨ f = 12 ∨ f = 13 ∨ f = 14 ∨ f = 15 := by
  have h : ∀ k : Fin 16, k = 0 ∨ k = 1 ∨ k = 2 ∨ k = 3 ∨ k = 4 ∨ k = 5 ∨ k = 6 ∨ k = 7 ∨ k = 8 ∨ k = 9 ∨
    k = 10 ∨ k = 11 ∨ k = 12 ∨ k = 13 ∨ k = 14 ∨ k = 15 := by decide
  have := h (nibbleNum f)
  rcases this with e | e | e | e | e | e | e | e | e | e | e | e | e | e | e | e <;>
    (have e' := congrArg numNibble e; rw [numNibble_nibbleNum] at e'; subst e'; decide)

theorem decodeWord_family0 (w : Word) (h : fieldF w = 0) : decodeWord w = decodeFamily0 w := by
  simp [decodeWord, h]

theorem decodeWord_family1 (w : Word) (h : fieldF w = 1) : decodeWord w = .ok (.jump (fieldNNN w)) := by
  simp [decodeWord, h]

theorem decodeWord_family2 (w : Word) (h : fieldF w = 2) : decodeWord w = .ok (.call (fieldNNN w)) := by
  simp [decodeWord, h]

theorem decodeWord_family3 (w : Word) (h : fieldF w = 3) : decodeWord w = .ok (.skipEqImm (fieldX w) (fieldNN w)) := by
  simp [decodeWord, h]

theorem decodeWord_family4 (w : Word) (h : fieldF w = 4) : decodeWord w = .ok (.skipNeqImm (fieldX w) (fieldNN w)) := by
  simp [decodeWord, h]

theorem decodeWord_family5 (w : Word) (h : fieldF w = 5) : decodeWord w = .ok (.skipEqReg (fieldX w) (fieldY w) (fieldN w)) := by
  simp [decodeWord, h]

theorem decodeWord_family6 (w : Word) (h : fieldF w = 6) : decodeWord w = .ok (.loadImm (fieldX w) (fieldNN w)) := by
  simp [decodeWord, h]

theorem decodeWord_family7 (w : Word) (h : fieldF w = 7) : decodeWord w = .ok (.addImm (fieldX w) (fieldNN w)) := by
  simp [decodeWord, h]

theorem decodeWord_family8 (w : Word) (h : fieldF w = 8) : decodeWord w = decodeFamily8 w := by
  simp [decodeWord, h]

theorem decodeWord_family9 (w : Word) (h : fieldF w = 9) : decodeWord w = .ok (.skipNeqReg (fieldX w) (fieldY w) (fieldN w)) := by
  simp [decodeWord, h]

theorem decodeWord_familyA (w : Word) (h : fieldF w = 10) : decodeWord w = .ok (.loadIndex (fieldNNN w)) := by
  simp [decodeWord, h]

theorem decodeWord_familyB (w : Word) (h : fieldF w = 11) : decodeWord w = .ok (.jumpPlusV0 (fieldNNN w)) := by
  simp [decodeWord, h]

theorem decodeWord_familyC (w : Word) (h : fieldF w = 12) : decodeWord w = .ok (.random (fieldX w) (fieldNN w)) := by
  simp [decodeWord, h]

theorem decodeWord_familyD (w : Word) (h : fieldF w = 13) : decodeWord w = .ok (.drawSprite (fieldX w) (fieldY w) (nibbleNum (fieldN w))) := by
  simp [decodeWord, h]

theorem decodeWord_familyE (w : Word) (h : fieldF w = 14) : decodeWord w = decodeFamilyE w := by
  simp [decodeWord, h]

theorem decodeWord_familyF (w : Word) (h : fieldF w = 15) : decodeWord w = decodeFamilyF w := by
  simp [decodeWord, h]

end Sys2Proof
end

