-- ==== Sys2Proof/Laws/Memory.lean ====
section
/-! SUPPORT. Memory: read after write, the canonical form, and what the runs of bytes do. -/

namespace Sys2Proof.Machine

theorem Memory.wfFrom_cons {lo a : Nat} {w : Byte} {t : Memory} :
    Memory.wfFrom lo ((a, w) :: t) = true ↔
      lo ≤ a ∧ a < 4096 ∧ w ≠ Memory.initial a ∧ Memory.wfFrom (a + 1) t = true := by
  simp [Memory.wfFrom, and_assoc]

/-- The canonical form from a higher bound is one from a lower bound. -/
theorem Memory.wfFrom_mono {m : Memory} {lo hi : Nat} (h : Memory.wfFrom hi m = true) (hle : lo ≤ hi) :
    Memory.wfFrom lo m = true := by
  cases m with
  | nil => rfl
  | cons c t =>
    obtain ⟨a, w⟩ := c
    rw [Memory.wfFrom_cons] at h ⊢
    exact ⟨by omega, h.2⟩

/-- Below its bound a canonical memory lists nothing. -/
theorem Memory.read_below {m : Memory} {lo a : Nat} (h : Memory.wfFrom lo m = true) (ha : a < lo) :
    m.read a = Memory.initial a := by
  induction m generalizing lo with
  | nil => rfl
  | cons c t ih =>
    obtain ⟨b, w⟩ := c
    rw [Memory.wfFrom_cons] at h
    have hne : a ≠ b := by omega
    simp [Memory.read, hne, ih h.2.2.2 (by omega)]

theorem Memory.wfFrom_consCell {lo a : Nat} {w : Byte} {t : Memory} (hlo : lo ≤ a) (ha : a < 4096)
    (ht : Memory.wfFrom (a + 1) t = true) : Memory.wfFrom lo (Memory.cons a w t) = true := by
  unfold Memory.cons
  split
  · exact Memory.wfFrom_mono ht (by omega)
  · rw [Memory.wfFrom_cons]
    exact ⟨hlo, ha, by assumption, ht⟩

/-- A write keeps the canonical form. -/
theorem Memory.wfFrom_write {m : Memory} {lo a : Nat} (w : Byte) (h : Memory.wfFrom lo m = true)
    (hlo : lo ≤ a) (ha : a < 4096) : Memory.wfFrom lo (m.write a w) = true := by
  induction m generalizing lo with
  | nil => exact Memory.wfFrom_consCell hlo ha rfl
  | cons c t ih =>
    obtain ⟨b, u⟩ := c
    have hc := Memory.wfFrom_cons.mp h
    unfold Memory.write
    split
    · exact Memory.wfFrom_consCell hlo ha (Memory.wfFrom_cons.mpr ⟨by omega, hc.2⟩)
    · split
      · exact Memory.wfFrom_consCell hlo ha (by simp_all)
      · exact Memory.wfFrom_cons.mpr ⟨hc.1, hc.2.1, hc.2.2.1, ih hc.2.2.2 (by omega)⟩

theorem Memory.wf_write {m : Memory} {a : Nat} (w : Byte) (h : m.wf = true) (ha : a < 4096) :
    (m.write a w).wf = true := Memory.wfFrom_write w h (Nat.zero_le a) ha

theorem Memory.read_consCell {a c : Nat} {w : Byte} {t : Memory} (ht : t.read a = Memory.initial a) :
    (Memory.cons a w t).read c = if c = a then w else t.read c := by
  unfold Memory.cons
  split
  · split <;> simp_all
  · simp [Memory.read]

/-- Read after write: the byte written, and every other byte as before. -/
theorem Memory.read_writeFrom {m : Memory} {lo a c : Nat} (w : Byte) (h : Memory.wfFrom lo m = true) :
    (m.write a w).read c = if c = a then w else m.read c := by
  induction m generalizing lo with
  | nil => exact Memory.read_consCell rfl
  | cons d t ih =>
    obtain ⟨b, u⟩ := d
    have hc := Memory.wfFrom_cons.mp h
    unfold Memory.write
    split
    · rename_i hlt
      exact Memory.read_consCell
        (Memory.read_below (lo := b) (Memory.wfFrom_cons.mpr ⟨le_refl b, hc.2⟩) hlt)
    · split
      · rename_i heq
        subst heq
        rw [Memory.read_consCell (Memory.read_below hc.2.2.2 (by omega))]
        by_cases hca : c = a <;> simp [Memory.read, hca]
      · rename_i hne
        simp only [Memory.read, ih hc.2.2.2]
        by_cases hcb : c = b
        · have : c ≠ a := by omega
          simp [hcb]; omega
        · simp [hcb]

theorem Memory.read_write {m : Memory} {a c : Nat} (w : Byte) (h : m.wf = true) :
    (m.write a w).read c = if c = a then w else m.read c := Memory.read_writeFrom w h

@[simp] theorem Memory.readBytes_length (m : Memory) (a n : Nat) : (m.readBytes a n).length = n := by
  induction n generalizing a with
  | zero => rfl
  | succ n ih => simp [Memory.readBytes, ih]

/-- Byte `k` of a run that is read. -/
theorem Memory.readBytes_get (m : Memory) (a n k : Nat) (h : k < n) :
    (m.readBytes a n)[k]'(by simpa using h) = m.read (a + k) := by
  induction n generalizing a k with
  | zero => omega
  | succ n ih =>
    cases k with
    | zero => simp [Memory.readBytes]
    | succ k =>
      simp only [Memory.readBytes, List.getElem_cons_succ]
      rw [ih (a + 1) k (by omega)]
      congr 1
      omega

/-- A run that is written keeps the canonical form. -/
theorem Memory.wf_writeBytes {m : Memory} {a : Nat} (bs : List Byte) (h : m.wf = true)
    (ha : a + bs.length ≤ 4096) : (m.writeBytes a bs).wf = true := by
  induction bs generalizing m a with
  | nil => exact h
  | cons b bs ih =>
    simp only [List.length_cons] at ha
    exact ih (Memory.wf_write b h (by omega)) (by omega)

/-- Outside a run that is written every byte reads as before. -/
theorem Memory.read_writeBytes_outside {m : Memory} {a c : Nat} (bs : List Byte) (h : m.wf = true)
    (ha : a + bs.length ≤ 4096) (hc : c < a ∨ a + bs.length ≤ c) :
    (m.writeBytes a bs).read c = m.read c := by
  induction bs generalizing m a with
  | nil => rfl
  | cons b bs ih =>
    simp only [List.length_cons] at ha hc
    unfold Memory.writeBytes
    rw [ih (Memory.wf_write b h (by omega)) (by omega) (by omega), Memory.read_write b h]
    have : c ≠ a := by omega
    simp [this]

/-- Inside a run that is written the bytes of the run are read. -/
theorem Memory.read_writeBytes_inside {m : Memory} {a k : Nat} (bs : List Byte) (h : m.wf = true)
    (ha : a + bs.length ≤ 4096) (hk : k < bs.length) :
    (m.writeBytes a bs).read (a + k) = bs[k] := by
  induction bs generalizing m a k with
  | nil => simp at hk
  | cons b bs ih =>
    simp only [List.length_cons] at ha hk
    unfold Memory.writeBytes
    cases k with
    | zero =>
      rw [Memory.read_writeBytes_outside bs (Memory.wf_write b h (by omega)) (by omega) (by omega),
        Memory.read_write b h]
      simp
    | succ k =>
      have := ih (m := m.write a b) (a := a + 1) (k := k) (Memory.wf_write b h (by omega)) (by omega) (by omega)
      simpa [Nat.add_assoc, Nat.add_comm 1 k] using this

/-- A canonical memory is the only one with its contents. -/
theorem Memory.eq_of_read {m n : Memory} (hm : m.wf = true) (hn : n.wf = true)
    (h : ∀ a, m.read a = n.read a) : m = n := by
  suffices ∀ (m n : Memory) (lo : Nat), Memory.wfFrom lo m = true → Memory.wfFrom lo n = true →
      (∀ a, m.read a = n.read a) → m = n from this m n 0 hm hn h
  intro m
  induction m with
  | nil =>
    intro n lo _ hn h
    cases n with
    | nil => rfl
    | cons c t =>
      obtain ⟨b, w⟩ := c
      have hc := Memory.wfFrom_cons.mp hn
      have := h b
      simp [Memory.read] at this
      exact absurd this.symm hc.2.2.1
  | cons c t ih =>
    obtain ⟨a, w⟩ := c
    intro n lo hm hn h
    have hcm := Memory.wfFrom_cons.mp hm
    cases n with
    | nil =>
      have := h a
      simp [Memory.read] at this
      exact absurd this hcm.2.2.1
    | cons d u =>
      obtain ⟨b, x⟩ := d
      have hcn := Memory.wfFrom_cons.mp hn
      have hab : a = b := by
        rcases Nat.lt_trichotomy a b with hlt | heq | hgt
        · have h1 := h a
          rw [Memory.read_below (lo := b) (Memory.wfFrom_cons.mpr ⟨le_refl b, hcn.2⟩) hlt] at h1
          simp [Memory.read] at h1
          exact absurd h1 hcm.2.2.1
        · exact heq
        · have h1 := h b
          rw [Memory.read_below (lo := a) (Memory.wfFrom_cons.mpr ⟨le_refl a, hcm.2⟩) hgt] at h1
          simp [Memory.read] at h1
          exact absurd h1.symm hcn.2.2.1
      subst hab
      have hw : w = x := by simpa [Memory.read] using h a
      subst hw
      congr 1
      apply ih u (a + 1) hcm.2.2.2 hcn.2.2.2
      intro e
      by_cases he : e = a
      · subst he
        rw [Memory.read_below hcm.2.2.2 (by omega), Memory.read_below hcn.2.2.2 (by omega)]
      · simpa [Memory.read, he] using h e

/-- The range check: some access above 0xFFF, and at least one access. -/
theorem rangeFaults_iff {base n : Nat} : rangeFaults base n = true ↔ 0 < n ∧ 4096 < base + n := by
  simp [rangeFaults]

theorem rangeFaults_false {base n : Nat} : rangeFaults base n = false ↔ n = 0 ∨ base + n ≤ 4096 := by
  have := @rangeFaults_iff base n
  cases h : rangeFaults base n <;> simp_all <;> omega

/-- The memory after a Load is canonical. -/
theorem imageCells_wf (img : List Byte) (a lo : Nat) (hlo : lo ≤ a) (ha : a + img.length ≤ 4096) :
    Memory.wfFrom lo (imageCells a img) = true := by
  induction img generalizing a lo with
  | nil => rfl
  | cons b bs ih =>
    simp only [List.length_cons] at ha
    exact Memory.wfFrom_consCell hlo (by omega) (ih (a + 1) (a + 1) (le_refl _) (by omega))

/-- Inside the image the memory after a Load holds the image. -/
theorem imageCells_read_inside (img : List Byte) (a k : Nat) (ha : a + img.length ≤ 4096) (hk : k < img.length) :
    (imageCells a img).read (a + k) = img[k] := by
  induction img generalizing a k with
  | nil => simp at hk
  | cons b bs ih =>
    simp only [List.length_cons] at ha hk
    unfold imageCells
    rw [Memory.read_consCell (Memory.read_below (imageCells_wf bs (a + 1) (a + 1) (le_refl _) (by omega)) (by omega))]
    cases k with
    | zero => simp
    | succ k =>
      have := ih (a + 1) k (by omega) (by omega)
      have hne : a + (k + 1) ≠ a := by omega
      simpa [hne, Nat.add_assoc, Nat.add_comm 1 k] using this

/-- Outside the image the memory after a Load is the cleared memory with its font. -/
theorem imageCells_read_outside (img : List Byte) (a c : Nat) (ha : a + img.length ≤ 4096)
    (hc : c < a ∨ a + img.length ≤ c) : (imageCells a img).read c = Memory.initial c := by
  induction img generalizing a with
  | nil => rfl
  | cons b bs ih =>
    simp only [List.length_cons] at ha hc
    unfold imageCells
    rw [Memory.read_consCell (Memory.read_below (imageCells_wf bs (a + 1) (a + 1) (le_refl _) (by omega)) (by omega))]
    have hne : c ≠ a := by omega
    simp [hne, ih (a + 1) (by omega) (by omega)]

end Sys2Proof.Machine
end

