-- ==== Sys2Proof/Laws/State.lean ====
section
/-! SUPPORT. One lemma per field per named update of the state, each true by unfolding the update once. -/

namespace Sys2Proof.Machine

/-! ### setReg -/

@[simp] theorem State.setReg_v (s : State) (x : Reg) (b : Byte) : (s.setReg x b).v = s.v.set x b := rfl
@[simp] theorem State.setReg_idx (s : State) (x : Reg) (b : Byte) : (s.setReg x b).idx = s.idx := rfl
@[simp] theorem State.setReg_pc (s : State) (x : Reg) (b : Byte) : (s.setReg x b).pc = s.pc := rfl
@[simp] theorem State.setReg_sp (s : State) (x : Reg) (b : Byte) : (s.setReg x b).sp = s.sp := rfl
@[simp] theorem State.setReg_stk (s : State) (x : Reg) (b : Byte) : (s.setReg x b).stk = s.stk := rfl
@[simp] theorem State.setReg_dt (s : State) (x : Reg) (b : Byte) : (s.setReg x b).dt = s.dt := rfl
@[simp] theorem State.setReg_st (s : State) (x : Reg) (b : Byte) : (s.setReg x b).st = s.st := rfl
@[simp] theorem State.setReg_disp (s : State) (x : Reg) (b : Byte) : (s.setReg x b).disp = s.disp := rfl
@[simp] theorem State.setReg_keys (s : State) (x : Reg) (b : Byte) : (s.setReg x b).keys = s.keys := rfl
@[simp] theorem State.setReg_halted (s : State) (x : Reg) (b : Byte) : (s.setReg x b).halted = s.halted := rfl
@[simp] theorem State.setReg_paused (s : State) (x : Reg) (b : Byte) : (s.setReg x b).paused = s.paused := rfl
@[simp] theorem State.setReg_ir (s : State) (x : Reg) (b : Byte) : (s.setReg x b).ir = s.ir := rfl
@[simp] theorem State.setReg_await (s : State) (x : Reg) (b : Byte) : (s.setReg x b).await = s.await := rfl
@[simp] theorem State.setReg_waitX (s : State) (x : Reg) (b : Byte) : (s.setReg x b).waitX = s.waitX := rfl
@[simp] theorem State.setReg_fault (s : State) (x : Reg) (b : Byte) : (s.setReg x b).fault = s.fault := rfl
@[simp] theorem State.setReg_mem (s : State) (x : Reg) (b : Byte) : (s.setReg x b).mem = s.mem := rfl
@[simp] theorem State.setReg_pending (s : State) (x : Reg) (b : Byte) : (s.setReg x b).pending = s.pending := rfl
@[simp] theorem State.setReg_rndDraws (s : State) (x : Reg) (b : Byte) : (s.setReg x b).rndDraws = s.rndDraws := rfl
@[simp] theorem State.setReg_pickDraws (s : State) (x : Reg) (b : Byte) : (s.setReg x b).pickDraws = s.pickDraws := rfl
@[simp] theorem State.setReg_outs (s : State) (x : Reg) (b : Byte) : (s.setReg x b).outs = s.outs := rfl

/-! ### setI -/

@[simp] theorem State.setI_v (s : State) (a : Word) : (s.setI a).v = s.v := rfl
@[simp] theorem State.setI_idx (s : State) (a : Word) : (s.setI a).idx = a := rfl
@[simp] theorem State.setI_pc (s : State) (a : Word) : (s.setI a).pc = s.pc := rfl
@[simp] theorem State.setI_sp (s : State) (a : Word) : (s.setI a).sp = s.sp := rfl
@[simp] theorem State.setI_stk (s : State) (a : Word) : (s.setI a).stk = s.stk := rfl
@[simp] theorem State.setI_dt (s : State) (a : Word) : (s.setI a).dt = s.dt := rfl
@[simp] theorem State.setI_st (s : State) (a : Word) : (s.setI a).st = s.st := rfl
@[simp] theorem State.setI_disp (s : State) (a : Word) : (s.setI a).disp = s.disp := rfl
@[simp] theorem State.setI_keys (s : State) (a : Word) : (s.setI a).keys = s.keys := rfl
@[simp] theorem State.setI_halted (s : State) (a : Word) : (s.setI a).halted = s.halted := rfl
@[simp] theorem State.setI_paused (s : State) (a : Word) : (s.setI a).paused = s.paused := rfl
@[simp] theorem State.setI_ir (s : State) (a : Word) : (s.setI a).ir = s.ir := rfl
@[simp] theorem State.setI_await (s : State) (a : Word) : (s.setI a).await = s.await := rfl
@[simp] theorem State.setI_waitX (s : State) (a : Word) : (s.setI a).waitX = s.waitX := rfl
@[simp] theorem State.setI_fault (s : State) (a : Word) : (s.setI a).fault = s.fault := rfl
@[simp] theorem State.setI_mem (s : State) (a : Word) : (s.setI a).mem = s.mem := rfl
@[simp] theorem State.setI_pending (s : State) (a : Word) : (s.setI a).pending = s.pending := rfl
@[simp] theorem State.setI_rndDraws (s : State) (a : Word) : (s.setI a).rndDraws = s.rndDraws := rfl
@[simp] theorem State.setI_pickDraws (s : State) (a : Word) : (s.setI a).pickDraws = s.pickDraws := rfl
@[simp] theorem State.setI_outs (s : State) (a : Word) : (s.setI a).outs = s.outs := rfl

/-! ### setPc -/

@[simp] theorem State.setPc_v (s : State) (a : Word) : (s.setPc a).v = s.v := rfl
@[simp] theorem State.setPc_idx (s : State) (a : Word) : (s.setPc a).idx = s.idx := rfl
@[simp] theorem State.setPc_pc (s : State) (a : Word) : (s.setPc a).pc = a := rfl
@[simp] theorem State.setPc_sp (s : State) (a : Word) : (s.setPc a).sp = s.sp := rfl
@[simp] theorem State.setPc_stk (s : State) (a : Word) : (s.setPc a).stk = s.stk := rfl
@[simp] theorem State.setPc_dt (s : State) (a : Word) : (s.setPc a).dt = s.dt := rfl
@[simp] theorem State.setPc_st (s : State) (a : Word) : (s.setPc a).st = s.st := rfl
@[simp] theorem State.setPc_disp (s : State) (a : Word) : (s.setPc a).disp = s.disp := rfl
@[simp] theorem State.setPc_keys (s : State) (a : Word) : (s.setPc a).keys = s.keys := rfl
@[simp] theorem State.setPc_halted (s : State) (a : Word) : (s.setPc a).halted = s.halted := rfl
@[simp] theorem State.setPc_paused (s : State) (a : Word) : (s.setPc a).paused = s.paused := rfl
@[simp] theorem State.setPc_ir (s : State) (a : Word) : (s.setPc a).ir = s.ir := rfl
@[simp] theorem State.setPc_await (s : State) (a : Word) : (s.setPc a).await = s.await := rfl
@[simp] theorem State.setPc_waitX (s : State) (a : Word) : (s.setPc a).waitX = s.waitX := rfl
@[simp] theorem State.setPc_fault (s : State) (a : Word) : (s.setPc a).fault = s.fault := rfl
@[simp] theorem State.setPc_mem (s : State) (a : Word) : (s.setPc a).mem = s.mem := rfl
@[simp] theorem State.setPc_pending (s : State) (a : Word) : (s.setPc a).pending = s.pending := rfl
@[simp] theorem State.setPc_rndDraws (s : State) (a : Word) : (s.setPc a).rndDraws = s.rndDraws := rfl
@[simp] theorem State.setPc_pickDraws (s : State) (a : Word) : (s.setPc a).pickDraws = s.pickDraws := rfl
@[simp] theorem State.setPc_outs (s : State) (a : Word) : (s.setPc a).outs = s.outs := rfl

/-! ### skip -/

@[simp] theorem State.skip_v (s : State) : (s.skip).v = s.v := rfl
@[simp] theorem State.skip_idx (s : State) : (s.skip).idx = s.idx := rfl
@[simp] theorem State.skip_pc (s : State) : (s.skip).pc = s.pc + 2 := rfl
@[simp] theorem State.skip_sp (s : State) : (s.skip).sp = s.sp := rfl
@[simp] theorem State.skip_stk (s : State) : (s.skip).stk = s.stk := rfl
@[simp] theorem State.skip_dt (s : State) : (s.skip).dt = s.dt := rfl
@[simp] theorem State.skip_st (s : State) : (s.skip).st = s.st := rfl
@[simp] theorem State.skip_disp (s : State) : (s.skip).disp = s.disp := rfl
@[simp] theorem State.skip_keys (s : State) : (s.skip).keys = s.keys := rfl
@[simp] theorem State.skip_halted (s : State) : (s.skip).halted = s.halted := rfl
@[simp] theorem State.skip_paused (s : State) : (s.skip).paused = s.paused := rfl
@[simp] theorem State.skip_ir (s : State) : (s.skip).ir = s.ir := rfl
@[simp] theorem State.skip_await (s : State) : (s.skip).await = s.await := rfl
@[simp] theorem State.skip_waitX (s : State) : (s.skip).waitX = s.waitX := rfl
@[simp] theorem State.skip_fault (s : State) : (s.skip).fault = s.fault := rfl
@[simp] theorem State.skip_mem (s : State) : (s.skip).mem = s.mem := rfl
@[simp] theorem State.skip_pending (s : State) : (s.skip).pending = s.pending := rfl
@[simp] theorem State.skip_rndDraws (s : State) : (s.skip).rndDraws = s.rndDraws := rfl
@[simp] theorem State.skip_pickDraws (s : State) : (s.skip).pickDraws = s.pickDraws := rfl
@[simp] theorem State.skip_outs (s : State) : (s.skip).outs = s.outs := rfl

/-! ### setDt -/

@[simp] theorem State.setDt_v (s : State) (b : Byte) : (s.setDt b).v = s.v := rfl
@[simp] theorem State.setDt_idx (s : State) (b : Byte) : (s.setDt b).idx = s.idx := rfl
@[simp] theorem State.setDt_pc (s : State) (b : Byte) : (s.setDt b).pc = s.pc := rfl
@[simp] theorem State.setDt_sp (s : State) (b : Byte) : (s.setDt b).sp = s.sp := rfl
@[simp] theorem State.setDt_stk (s : State) (b : Byte) : (s.setDt b).stk = s.stk := rfl
@[simp] theorem State.setDt_dt (s : State) (b : Byte) : (s.setDt b).dt = b := rfl
@[simp] theorem State.setDt_st (s : State) (b : Byte) : (s.setDt b).st = s.st := rfl
@[simp] theorem State.setDt_disp (s : State) (b : Byte) : (s.setDt b).disp = s.disp := rfl
@[simp] theorem State.setDt_keys (s : State) (b : Byte) : (s.setDt b).keys = s.keys := rfl
@[simp] theorem State.setDt_halted (s : State) (b : Byte) : (s.setDt b).halted = s.halted := rfl
@[simp] theorem State.setDt_paused (s : State) (b : Byte) : (s.setDt b).paused = s.paused := rfl
@[simp] theorem State.setDt_ir (s : State) (b : Byte) : (s.setDt b).ir = s.ir := rfl
@[simp] theorem State.setDt_await (s : State) (b : Byte) : (s.setDt b).await = s.await := rfl
@[simp] theorem State.setDt_waitX (s : State) (b : Byte) : (s.setDt b).waitX = s.waitX := rfl
@[simp] theorem State.setDt_fault (s : State) (b : Byte) : (s.setDt b).fault = s.fault := rfl
@[simp] theorem State.setDt_mem (s : State) (b : Byte) : (s.setDt b).mem = s.mem := rfl
@[simp] theorem State.setDt_pending (s : State) (b : Byte) : (s.setDt b).pending = s.pending := rfl
@[simp] theorem State.setDt_rndDraws (s : State) (b : Byte) : (s.setDt b).rndDraws = s.rndDraws := rfl
@[simp] theorem State.setDt_pickDraws (s : State) (b : Byte) : (s.setDt b).pickDraws = s.pickDraws := rfl
@[simp] theorem State.setDt_outs (s : State) (b : Byte) : (s.setDt b).outs = s.outs := rfl

/-! ### setSt -/

@[simp] theorem State.setSt_v (s : State) (b : Byte) : (s.setSt b).v = s.v := rfl
@[simp] theorem State.setSt_idx (s : State) (b : Byte) : (s.setSt b).idx = s.idx := rfl
@[simp] theorem State.setSt_pc (s : State) (b : Byte) : (s.setSt b).pc = s.pc := rfl
@[simp] theorem State.setSt_sp (s : State) (b : Byte) : (s.setSt b).sp = s.sp := rfl
@[simp] theorem State.setSt_stk (s : State) (b : Byte) : (s.setSt b).stk = s.stk := rfl
@[simp] theorem State.setSt_dt (s : State) (b : Byte) : (s.setSt b).dt = s.dt := rfl
@[simp] theorem State.setSt_st (s : State) (b : Byte) : (s.setSt b).st = b := rfl
@[simp] theorem State.setSt_disp (s : State) (b : Byte) : (s.setSt b).disp = s.disp := rfl
@[simp] theorem State.setSt_keys (s : State) (b : Byte) : (s.setSt b).keys = s.keys := rfl
@[simp] theorem State.setSt_halted (s : State) (b : Byte) : (s.setSt b).halted = s.halted := rfl
@[simp] theorem State.setSt_paused (s : State) (b : Byte) : (s.setSt b).paused = s.paused := rfl
@[simp] theorem State.setSt_ir (s : State) (b : Byte) : (s.setSt b).ir = s.ir := rfl
@[simp] theorem State.setSt_await (s : State) (b : Byte) : (s.setSt b).await = s.await := rfl
@[simp] theorem State.setSt_waitX (s : State) (b : Byte) : (s.setSt b).waitX = s.waitX := rfl
@[simp] theorem State.setSt_fault (s : State) (b : Byte) : (s.setSt b).fault = s.fault := rfl
@[simp] theorem State.setSt_mem (s : State) (b : Byte) : (s.setSt b).mem = s.mem := rfl
@[simp] theorem State.setSt_pending (s : State) (b : Byte) : (s.setSt b).pending = s.pending := rfl
@[simp] theorem State.setSt_rndDraws (s : State) (b : Byte) : (s.setSt b).rndDraws = s.rndDraws := rfl
@[simp] theorem State.setSt_pickDraws (s : State) (b : Byte) : (s.setSt b).pickDraws = s.pickDraws := rfl
@[simp] theorem State.setSt_outs (s : State) (b : Byte) : (s.setSt b).outs = s.outs := rfl

/-! ### setDisp -/

@[simp] theorem State.setDisp_v (s : State) (d : Display) : (s.setDisp d).v = s.v := rfl
@[simp] theorem State.setDisp_idx (s : State) (d : Display) : (s.setDisp d).idx = s.idx := rfl
@[simp] theorem State.setDisp_pc (s : State) (d : Display) : (s.setDisp d).pc = s.pc := rfl
@[simp] theorem State.setDisp_sp (s : State) (d : Display) : (s.setDisp d).sp = s.sp := rfl
@[simp] theorem State.setDisp_stk (s : State) (d : Display) : (s.setDisp d).stk = s.stk := rfl
@[simp] theorem State.setDisp_dt (s : State) (d : Display) : (s.setDisp d).dt = s.dt := rfl
@[simp] theorem State.setDisp_st (s : State) (d : Display) : (s.setDisp d).st = s.st := rfl
@[simp] theorem State.setDisp_disp (s : State) (d : Display) : (s.setDisp d).disp = d := rfl
@[simp] theorem State.setDisp_keys (s : State) (d : Display) : (s.setDisp d).keys = s.keys := rfl
@[simp] theorem State.setDisp_halted (s : State) (d : Display) : (s.setDisp d).halted = s.halted := rfl
@[simp] theorem State.setDisp_paused (s : State) (d : Display) : (s.setDisp d).paused = s.paused := rfl
@[simp] theorem State.setDisp_ir (s : State) (d : Display) : (s.setDisp d).ir = s.ir := rfl
@[simp] theorem State.setDisp_await (s : State) (d : Display) : (s.setDisp d).await = s.await := rfl
@[simp] theorem State.setDisp_waitX (s : State) (d : Display) : (s.setDisp d).waitX = s.waitX := rfl
@[simp] theorem State.setDisp_fault (s : State) (d : Display) : (s.setDisp d).fault = s.fault := rfl
@[simp] theorem State.setDisp_mem (s : State) (d : Display) : (s.setDisp d).mem = s.mem := rfl
@[simp] theorem State.setDisp_pending (s : State) (d : Display) : (s.setDisp d).pending = s.pending := rfl
@[simp] theorem State.setDisp_rndDraws (s : State) (d : Display) : (s.setDisp d).rndDraws = s.rndDraws := rfl
@[simp] theorem State.setDisp_pickDraws (s : State) (d : Display) : (s.setDisp d).pickDraws = s.pickDraws := rfl
@[simp] theorem State.setDisp_outs (s : State) (d : Display) : (s.setDisp d).outs = s.outs := rfl

/-! ### setMem -/

@[simp] theorem State.setMem_v (s : State) (m : Memory) : (s.setMem m).v = s.v := rfl
@[simp] theorem State.setMem_idx (s : State) (m : Memory) : (s.setMem m).idx = s.idx := rfl
@[simp] theorem State.setMem_pc (s : State) (m : Memory) : (s.setMem m).pc = s.pc := rfl
@[simp] theorem State.setMem_sp (s : State) (m : Memory) : (s.setMem m).sp = s.sp := rfl
@[simp] theorem State.setMem_stk (s : State) (m : Memory) : (s.setMem m).stk = s.stk := rfl
@[simp] theorem State.setMem_dt (s : State) (m : Memory) : (s.setMem m).dt = s.dt := rfl
@[simp] theorem State.setMem_st (s : State) (m : Memory) : (s.setMem m).st = s.st := rfl
@[simp] theorem State.setMem_disp (s : State) (m : Memory) : (s.setMem m).disp = s.disp := rfl
@[simp] theorem State.setMem_keys (s : State) (m : Memory) : (s.setMem m).keys = s.keys := rfl
@[simp] theorem State.setMem_halted (s : State) (m : Memory) : (s.setMem m).halted = s.halted := rfl
@[simp] theorem State.setMem_paused (s : State) (m : Memory) : (s.setMem m).paused = s.paused := rfl
@[simp] theorem State.setMem_ir (s : State) (m : Memory) : (s.setMem m).ir = s.ir := rfl
@[simp] theorem State.setMem_await (s : State) (m : Memory) : (s.setMem m).await = s.await := rfl
@[simp] theorem State.setMem_waitX (s : State) (m : Memory) : (s.setMem m).waitX = s.waitX := rfl
@[simp] theorem State.setMem_fault (s : State) (m : Memory) : (s.setMem m).fault = s.fault := rfl
@[simp] theorem State.setMem_mem (s : State) (m : Memory) : (s.setMem m).mem = m := rfl
@[simp] theorem State.setMem_pending (s : State) (m : Memory) : (s.setMem m).pending = s.pending := rfl
@[simp] theorem State.setMem_rndDraws (s : State) (m : Memory) : (s.setMem m).rndDraws = s.rndDraws := rfl
@[simp] theorem State.setMem_pickDraws (s : State) (m : Memory) : (s.setMem m).pickDraws = s.pickDraws := rfl
@[simp] theorem State.setMem_outs (s : State) (m : Memory) : (s.setMem m).outs = s.outs := rfl

/-! ### fetched -/

@[simp] theorem State.fetched_v (s : State) (w : Word) : (s.fetched w).v = s.v := rfl
@[simp] theorem State.fetched_idx (s : State) (w : Word) : (s.fetched w).idx = s.idx := rfl
@[simp] theorem State.fetched_pc (s : State) (w : Word) : (s.fetched w).pc = s.pc + 2 := rfl
@[simp] theorem State.fetched_sp (s : State) (w : Word) : (s.fetched w).sp = s.sp := rfl
@[simp] theorem State.fetched_stk (s : State) (w : Word) : (s.fetched w).stk = s.stk := rfl
@[simp] theorem State.fetched_dt (s : State) (w : Word) : (s.fetched w).dt = s.dt := rfl
@[simp] theorem State.fetched_st (s : State) (w : Word) : (s.fetched w).st = s.st := rfl
@[simp] theorem State.fetched_disp (s : State) (w : Word) : (s.fetched w).disp = s.disp := rfl
@[simp] theorem State.fetched_keys (s : State) (w : Word) : (s.fetched w).keys = s.keys := rfl
@[simp] theorem State.fetched_halted (s : State) (w : Word) : (s.fetched w).halted = s.halted := rfl
@[simp] theorem State.fetched_paused (s : State) (w : Word) : (s.fetched w).paused = s.paused := rfl
@[simp] theorem State.fetched_ir (s : State) (w : Word) : (s.fetched w).ir = w := rfl
@[simp] theorem State.fetched_await (s : State) (w : Word) : (s.fetched w).await = s.await := rfl
@[simp] theorem State.fetched_waitX (s : State) (w : Word) : (s.fetched w).waitX = s.waitX := rfl
@[simp] theorem State.fetched_fault (s : State) (w : Word) : (s.fetched w).fault = s.fault := rfl
@[simp] theorem State.fetched_mem (s : State) (w : Word) : (s.fetched w).mem = s.mem := rfl
@[simp] theorem State.fetched_pending (s : State) (w : Word) : (s.fetched w).pending = s.pending := rfl
@[simp] theorem State.fetched_rndDraws (s : State) (w : Word) : (s.fetched w).rndDraws = s.rndDraws := rfl
@[simp] theorem State.fetched_pickDraws (s : State) (w : Word) : (s.fetched w).pickDraws = s.pickDraws := rfl
@[simp] theorem State.fetched_outs (s : State) (w : Word) : (s.fetched w).outs = s.outs := rfl

/-! ### beginWait -/

@[simp] theorem State.beginWait_v (s : State) (x : Reg) : (s.beginWait x).v = s.v := rfl
@[simp] theorem State.beginWait_idx (s : State) (x : Reg) : (s.beginWait x).idx = s.idx := rfl
@[simp] theorem State.beginWait_pc (s : State) (x : Reg) : (s.beginWait x).pc = s.pc := rfl
@[simp] theorem State.beginWait_sp (s : State) (x : Reg) : (s.beginWait x).sp = s.sp := rfl
@[simp] theorem State.beginWait_stk (s : State) (x : Reg) : (s.beginWait x).stk = s.stk := rfl
@[simp] theorem State.beginWait_dt (s : State) (x : Reg) : (s.beginWait x).dt = s.dt := rfl
@[simp] theorem State.beginWait_st (s : State) (x : Reg) : (s.beginWait x).st = s.st := rfl
@[simp] theorem State.beginWait_disp (s : State) (x : Reg) : (s.beginWait x).disp = s.disp := rfl
@[simp] theorem State.beginWait_keys (s : State) (x : Reg) : (s.beginWait x).keys = s.keys := rfl
@[simp] theorem State.beginWait_halted (s : State) (x : Reg) : (s.beginWait x).halted = s.halted := rfl
@[simp] theorem State.beginWait_paused (s : State) (x : Reg) : (s.beginWait x).paused = s.paused := rfl
@[simp] theorem State.beginWait_ir (s : State) (x : Reg) : (s.beginWait x).ir = s.ir := rfl
@[simp] theorem State.beginWait_await (s : State) (x : Reg) : (s.beginWait x).await = true := rfl
@[simp] theorem State.beginWait_waitX (s : State) (x : Reg) : (s.beginWait x).waitX = x := rfl
@[simp] theorem State.beginWait_fault (s : State) (x : Reg) : (s.beginWait x).fault = s.fault := rfl
@[simp] theorem State.beginWait_mem (s : State) (x : Reg) : (s.beginWait x).mem = s.mem := rfl
@[simp] theorem State.beginWait_pending (s : State) (x : Reg) : (s.beginWait x).pending = s.pending := rfl
@[simp] theorem State.beginWait_rndDraws (s : State) (x : Reg) : (s.beginWait x).rndDraws = s.rndDraws := rfl
@[simp] theorem State.beginWait_pickDraws (s : State) (x : Reg) : (s.beginWait x).pickDraws = s.pickDraws := rfl
@[simp] theorem State.beginWait_outs (s : State) (x : Reg) : (s.beginWait x).outs = s.outs := rfl

/-! ### drewRnd -/

@[simp] theorem State.drewRnd_v (s : State) : (s.drewRnd).v = s.v := rfl
@[simp] theorem State.drewRnd_idx (s : State) : (s.drewRnd).idx = s.idx := rfl
@[simp] theorem State.drewRnd_pc (s : State) : (s.drewRnd).pc = s.pc := rfl
@[simp] theorem State.drewRnd_sp (s : State) : (s.drewRnd).sp = s.sp := rfl
@[simp] theorem State.drewRnd_stk (s : State) : (s.drewRnd).stk = s.stk := rfl
@[simp] theorem State.drewRnd_dt (s : State) : (s.drewRnd).dt = s.dt := rfl
@[simp] theorem State.drewRnd_st (s : State) : (s.drewRnd).st = s.st := rfl
@[simp] theorem State.drewRnd_disp (s : State) : (s.drewRnd).disp = s.disp := rfl
@[simp] theorem State.drewRnd_keys (s : State) : (s.drewRnd).keys = s.keys := rfl
@[simp] theorem State.drewRnd_halted (s : State) : (s.drewRnd).halted = s.halted := rfl
@[simp] theorem State.drewRnd_paused (s : State) : (s.drewRnd).paused = s.paused := rfl
@[simp] theorem State.drewRnd_ir (s : State) : (s.drewRnd).ir = s.ir := rfl
@[simp] theorem State.drewRnd_await (s : State) : (s.drewRnd).await = s.await := rfl
@[simp] theorem State.drewRnd_waitX (s : State) : (s.drewRnd).waitX = s.waitX := rfl
@[simp] theorem State.drewRnd_fault (s : State) : (s.drewRnd).fault = s.fault := rfl
@[simp] theorem State.drewRnd_mem (s : State) : (s.drewRnd).mem = s.mem := rfl
@[simp] theorem State.drewRnd_pending (s : State) : (s.drewRnd).pending = s.pending := rfl
@[simp] theorem State.drewRnd_rndDraws (s : State) : (s.drewRnd).rndDraws = s.rndDraws + 1 := rfl
@[simp] theorem State.drewRnd_pickDraws (s : State) : (s.drewRnd).pickDraws = s.pickDraws := rfl
@[simp] theorem State.drewRnd_outs (s : State) : (s.drewRnd).outs = s.outs := rfl

/-! ### push -/

@[simp] theorem State.push_v (s : State) (a : Word) : (s.push a).v = s.v := rfl
@[simp] theorem State.push_idx (s : State) (a : Word) : (s.push a).idx = s.idx := rfl
@[simp] theorem State.push_pc (s : State) (a : Word) : (s.push a).pc = s.pc := rfl
@[simp] theorem State.push_sp (s : State) (a : Word) : (s.push a).sp = spUp s.sp := rfl
@[simp] theorem State.push_stk (s : State) (a : Word) : (s.push a).stk = s.stk.set (stackSlot s.sp) a := rfl
@[simp] theorem State.push_dt (s : State) (a : Word) : (s.push a).dt = s.dt := rfl
@[simp] theorem State.push_st (s : State) (a : Word) : (s.push a).st = s.st := rfl
@[simp] theorem State.push_disp (s : State) (a : Word) : (s.push a).disp = s.disp := rfl
@[simp] theorem State.push_keys (s : State) (a : Word) : (s.push a).keys = s.keys := rfl
@[simp] theorem State.push_halted (s : State) (a : Word) : (s.push a).halted = s.halted := rfl
@[simp] theorem State.push_paused (s : State) (a : Word) : (s.push a).paused = s.paused := rfl
@[simp] theorem State.push_ir (s : State) (a : Word) : (s.push a).ir = s.ir := rfl
@[simp] theorem State.push_await (s : State) (a : Word) : (s.push a).await = s.await := rfl
@[simp] theorem State.push_waitX (s : State) (a : Word) : (s.push a).waitX = s.waitX := rfl
@[simp] theorem State.push_fault (s : State) (a : Word) : (s.push a).fault = s.fault := rfl
@[simp] theorem State.push_mem (s : State) (a : Word) : (s.push a).mem = s.mem := rfl
@[simp] theorem State.push_pending (s : State) (a : Word) : (s.push a).pending = s.pending := rfl
@[simp] theorem State.push_rndDraws (s : State) (a : Word) : (s.push a).rndDraws = s.rndDraws := rfl
@[simp] theorem State.push_pickDraws (s : State) (a : Word) : (s.push a).pickDraws = s.pickDraws := rfl
@[simp] theorem State.push_outs (s : State) (a : Word) : (s.push a).outs = s.outs := rfl

/-! ### popPc -/

@[simp] theorem State.popPc_v (s : State) : (s.popPc).v = s.v := rfl
@[simp] theorem State.popPc_idx (s : State) : (s.popPc).idx = s.idx := rfl
@[simp] theorem State.popPc_pc (s : State) : (s.popPc).pc = s.stk[stackSlot (spDown s.sp)] := rfl
@[simp] theorem State.popPc_sp (s : State) : (s.popPc).sp = spDown s.sp := rfl
@[simp] theorem State.popPc_stk (s : State) : (s.popPc).stk = s.stk := rfl
@[simp] theorem State.popPc_dt (s : State) : (s.popPc).dt = s.dt := rfl
@[simp] theorem State.popPc_st (s : State) : (s.popPc).st = s.st := rfl
@[simp] theorem State.popPc_disp (s : State) : (s.popPc).disp = s.disp := rfl
@[simp] theorem State.popPc_keys (s : State) : (s.popPc).keys = s.keys := rfl
@[simp] theorem State.popPc_halted (s : State) : (s.popPc).halted = s.halted := rfl
@[simp] theorem State.popPc_paused (s : State) : (s.popPc).paused = s.paused := rfl
@[simp] theorem State.popPc_ir (s : State) : (s.popPc).ir = s.ir := rfl
@[simp] theorem State.popPc_await (s : State) : (s.popPc).await = s.await := rfl
@[simp] theorem State.popPc_waitX (s : State) : (s.popPc).waitX = s.waitX := rfl
@[simp] theorem State.popPc_fault (s : State) : (s.popPc).fault = s.fault := rfl
@[simp] theorem State.popPc_mem (s : State) : (s.popPc).mem = s.mem := rfl
@[simp] theorem State.popPc_pending (s : State) : (s.popPc).pending = s.pending := rfl
@[simp] theorem State.popPc_rndDraws (s : State) : (s.popPc).rndDraws = s.rndDraws := rfl
@[simp] theorem State.popPc_pickDraws (s : State) : (s.popPc).pickDraws = s.pickDraws := rfl
@[simp] theorem State.popPc_outs (s : State) : (s.popPc).outs = s.outs := rfl

/-! ### raised -/

@[simp] theorem State.raised_v (s : State) (c : FaultCode) : (s.raised c).v = s.v := rfl
@[simp] theorem State.raised_idx (s : State) (c : FaultCode) : (s.raised c).idx = s.idx := rfl
@[simp] theorem State.raised_pc (s : State) (c : FaultCode) : (s.raised c).pc = s.pc := rfl
@[simp] theorem State.raised_sp (s : State) (c : FaultCode) : (s.raised c).sp = s.sp := rfl
@[simp] theorem State.raised_stk (s : State) (c : FaultCode) : (s.raised c).stk = s.stk := rfl
@[simp] theorem State.raised_dt (s : State) (c : FaultCode) : (s.raised c).dt = s.dt := rfl
@[simp] theorem State.raised_st (s : State) (c : FaultCode) : (s.raised c).st = s.st := rfl
@[simp] theorem State.raised_disp (s : State) (c : FaultCode) : (s.raised c).disp = s.disp := rfl
@[simp] theorem State.raised_keys (s : State) (c : FaultCode) : (s.raised c).keys = s.keys := rfl
@[simp] theorem State.raised_halted (s : State) (c : FaultCode) : (s.raised c).halted = true := rfl
@[simp] theorem State.raised_paused (s : State) (c : FaultCode) : (s.raised c).paused = s.paused := rfl
@[simp] theorem State.raised_ir (s : State) (c : FaultCode) : (s.raised c).ir = s.ir := rfl
@[simp] theorem State.raised_await (s : State) (c : FaultCode) : (s.raised c).await = s.await := rfl
@[simp] theorem State.raised_waitX (s : State) (c : FaultCode) : (s.raised c).waitX = s.waitX := rfl
@[simp] theorem State.raised_fault (s : State) (c : FaultCode) : (s.raised c).fault = c := rfl
@[simp] theorem State.raised_mem (s : State) (c : FaultCode) : (s.raised c).mem = s.mem := rfl
@[simp] theorem State.raised_pending (s : State) (c : FaultCode) : (s.raised c).pending = s.pending := rfl
@[simp] theorem State.raised_rndDraws (s : State) (c : FaultCode) : (s.raised c).rndDraws = s.rndDraws := rfl
@[simp] theorem State.raised_pickDraws (s : State) (c : FaultCode) : (s.raised c).pickDraws = s.pickDraws := rfl
@[simp] theorem State.raised_outs (s : State) (c : FaultCode) : (s.raised c).outs = s.outs := rfl

/-! ### ticked -/

@[simp] theorem State.ticked_v (s : State) : (s.ticked).v = s.v := rfl
@[simp] theorem State.ticked_idx (s : State) : (s.ticked).idx = s.idx := rfl
@[simp] theorem State.ticked_pc (s : State) : (s.ticked).pc = s.pc := rfl
@[simp] theorem State.ticked_sp (s : State) : (s.ticked).sp = s.sp := rfl
@[simp] theorem State.ticked_stk (s : State) : (s.ticked).stk = s.stk := rfl
@[simp] theorem State.ticked_dt (s : State) : (s.ticked).dt = tickDown s.dt := rfl
@[simp] theorem State.ticked_st (s : State) : (s.ticked).st = tickDown s.st := rfl
@[simp] theorem State.ticked_disp (s : State) : (s.ticked).disp = s.disp := rfl
@[simp] theorem State.ticked_keys (s : State) : (s.ticked).keys = s.keys := rfl
@[simp] theorem State.ticked_halted (s : State) : (s.ticked).halted = s.halted := rfl
@[simp] theorem State.ticked_paused (s : State) : (s.ticked).paused = s.paused := rfl
@[simp] theorem State.ticked_ir (s : State) : (s.ticked).ir = s.ir := rfl
@[simp] theorem State.ticked_await (s : State) : (s.ticked).await = s.await := rfl
@[simp] theorem State.ticked_waitX (s : State) : (s.ticked).waitX = s.waitX := rfl
@[simp] theorem State.ticked_fault (s : State) : (s.ticked).fault = s.fault := rfl
@[simp] theorem State.ticked_mem (s : State) : (s.ticked).mem = s.mem := rfl
@[simp] theorem State.ticked_pending (s : State) : (s.ticked).pending = s.pending := rfl
@[simp] theorem State.ticked_rndDraws (s : State) : (s.ticked).rndDraws = s.rndDraws := rfl
@[simp] theorem State.ticked_pickDraws (s : State) : (s.ticked).pickDraws = s.pickDraws := rfl
@[simp] theorem State.ticked_outs (s : State) : (s.ticked).outs = outsAfterTick s := rfl

/-! ### skipIf -/

@[simp] theorem State.skipIf_pc (s : State) (c : Bool) : (s.skipIf c).pc = if c then s.pc + 2 else s.pc := by
  cases c <;> rfl
@[simp] theorem State.skipIf_v (s : State) (c : Bool) : (s.skipIf c).v = s.v := by cases c <;> rfl
@[simp] theorem State.skipIf_idx (s : State) (c : Bool) : (s.skipIf c).idx = s.idx := by cases c <;> rfl
@[simp] theorem State.skipIf_sp (s : State) (c : Bool) : (s.skipIf c).sp = s.sp := by cases c <;> rfl
@[simp] theorem State.skipIf_stk (s : State) (c : Bool) : (s.skipIf c).stk = s.stk := by cases c <;> rfl
@[simp] theorem State.skipIf_dt (s : State) (c : Bool) : (s.skipIf c).dt = s.dt := by cases c <;> rfl
@[simp] theorem State.skipIf_st (s : State) (c : Bool) : (s.skipIf c).st = s.st := by cases c <;> rfl
@[simp] theorem State.skipIf_disp (s : State) (c : Bool) : (s.skipIf c).disp = s.disp := by cases c <;> rfl
@[simp] theorem State.skipIf_keys (s : State) (c : Bool) : (s.skipIf c).keys = s.keys := by cases c <;> rfl
@[simp] theorem State.skipIf_halted (s : State) (c : Bool) : (s.skipIf c).halted = s.halted := by cases c <;> rfl
@[simp] theorem State.skipIf_paused (s : State) (c : Bool) : (s.skipIf c).paused = s.paused := by cases c <;> rfl
@[simp] theorem State.skipIf_ir (s : State) (c : Bool) : (s.skipIf c).ir = s.ir := by cases c <;> rfl
@[simp] theorem State.skipIf_await (s : State) (c : Bool) : (s.skipIf c).await = s.await := by cases c <;> rfl
@[simp] theorem State.skipIf_waitX (s : State) (c : Bool) : (s.skipIf c).waitX = s.waitX := by cases c <;> rfl
@[simp] theorem State.skipIf_fault (s : State) (c : Bool) : (s.skipIf c).fault = s.fault := by cases c <;> rfl
@[simp] theorem State.skipIf_mem (s : State) (c : Bool) : (s.skipIf c).mem = s.mem := by cases c <;> rfl
@[simp] theorem State.skipIf_pending (s : State) (c : Bool) : (s.skipIf c).pending = s.pending := by cases c <;> rfl
@[simp] theorem State.skipIf_rndDraws (s : State) (c : Bool) : (s.skipIf c).rndDraws = s.rndDraws := by cases c <;> rfl
@[simp] theorem State.skipIf_pickDraws (s : State) (c : Bool) : (s.skipIf c).pickDraws = s.pickDraws := by cases c <;> rfl
@[simp] theorem State.skipIf_outs (s : State) (c : Bool) : (s.skipIf c).outs = s.outs := by cases c <;> rfl

/-! ### setRegFlag -/

@[simp] theorem State.setRegFlag_v (s : State) (x : Reg) (r : Byte) (c : Bool) : (s.setRegFlag x r c).v = (s.v.set x r).set regF (flagByte c) := rfl
@[simp] theorem State.setRegFlag_idx (s : State) (x : Reg) (r : Byte) (c : Bool) : (s.setRegFlag x r c).idx = s.idx := rfl
@[simp] theorem State.setRegFlag_pc (s : State) (x : Reg) (r : Byte) (c : Bool) : (s.setRegFlag x r c).pc = s.pc := rfl
@[simp] theorem State.setRegFlag_sp (s : State) (x : Reg) (r : Byte) (c : Bool) : (s.setRegFlag x r c).sp = s.sp := rfl
@[simp] theorem State.setRegFlag_stk (s : State) (x : Reg) (r : Byte) (c : Bool) : (s.setRegFlag x r c).stk = s.stk := rfl
@[simp] theorem State.setRegFlag_dt (s : State) (x : Reg) (r : Byte) (c : Bool) : (s.setRegFlag x r c).dt = s.dt := rfl
@[simp] theorem State.setRegFlag_st (s : State) (x : Reg) (r : Byte) (c : Bool) : (s.setRegFlag x r c).st = s.st := rfl
@[simp] theorem State.setRegFlag_disp (s : State) (x : Reg) (r : Byte) (c : Bool) : (s.setRegFlag x r c).disp = s.disp := rfl
@[simp] theorem State.setRegFlag_keys (s : State) (x : Reg) (r : Byte) (c : Bool) : (s.setRegFlag x r c).keys = s.keys := rfl
@[simp] theorem State.setRegFlag_halted (s : State) (x : Reg) (r : Byte) (c : Bool) : (s.setRegFlag x r c).halted = s.halted := rfl
@[simp] theorem State.setRegFlag_paused (s : State) (x : Reg) (r : Byte) (c : Bool) : (s.setRegFlag x r c).paused = s.paused := rfl
@[simp] theorem State.setRegFlag_ir (s : State) (x : Reg) (r : Byte) (c : Bool) : (s.setRegFlag x r c).ir = s.ir := rfl
@[simp] theorem State.setRegFlag_await (s : State) (x : Reg) (r : Byte) (c : Bool) : (s.setRegFlag x r c).await = s.await := rfl
@[simp] theorem State.setRegFlag_waitX (s : State) (x : Reg) (r : Byte) (c : Bool) : (s.setRegFlag x r c).waitX = s.waitX := rfl
@[simp] theorem State.setRegFlag_fault (s : State) (x : Reg) (r : Byte) (c : Bool) : (s.setRegFlag x r c).fault = s.fault := rfl
@[simp] theorem State.setRegFlag_mem (s : State) (x : Reg) (r : Byte) (c : Bool) : (s.setRegFlag x r c).mem = s.mem := rfl
@[simp] theorem State.setRegFlag_pending (s : State) (x : Reg) (r : Byte) (c : Bool) : (s.setRegFlag x r c).pending = s.pending := rfl
@[simp] theorem State.setRegFlag_rndDraws (s : State) (x : Reg) (r : Byte) (c : Bool) : (s.setRegFlag x r c).rndDraws = s.rndDraws := rfl
@[simp] theorem State.setRegFlag_pickDraws (s : State) (x : Reg) (r : Byte) (c : Bool) : (s.setRegFlag x r c).pickDraws = s.pickDraws := rfl
@[simp] theorem State.setRegFlag_outs (s : State) (x : Reg) (r : Byte) (c : Bool) : (s.setRegFlag x r c).outs = s.outs := rfl

end Sys2Proof.Machine
end

