-- ==== Sys2Proof/Laws/Ops.lean ====
section
/-! SUPPORT. One lemma per shared operation: everything it can do. -/

namespace Sys2Proof.Machine

/-! ## Registers -/

theorem State.reg_setReg (s : State) (x r : Reg) (b : Byte) :
    (s.setReg x b).reg r = if r = x then b else s.reg r := by
  by_cases h : r = x
  · subst h; simp [State.reg]
  · have h' : x.val ≠ r.val := fun e => h (Fin.ext e.symm)
    simp [State.reg, h, Vector.getElem_set_ne _ _ h']

/-- The flag is written last: it wins over the result (10_state.md R21). -/
theorem State.reg_setRegFlag (s : State) (x r : Reg) (b : Byte) (c : Bool) :
    (s.setRegFlag x b c).reg r = if r = 15 then flagByte c else if r = x then b else s.reg r := by
  simp only [State.setRegFlag, State.reg_setReg, regF]

/-- A run of registers takes the bytes in order, the others keep theirs. -/
theorem setRun_get (v : Vector Byte 16) (k : Nat) (bs : List Byte) (r : Reg) (h : k + bs.length ≤ 16) :
    (setRun v k bs)[r] =
      if hr : k ≤ r.val ∧ r.val < k + bs.length then bs[r.val - k]'(by omega) else v[r] := by
  induction bs generalizing v k with
  | nil =>
    have : ¬ (k ≤ r.val ∧ r.val < k + ([] : List Byte).length) := by simp
    rw [dif_neg this]; rfl
  | cons b bs ih =>
    simp only [List.length_cons] at h
    simp only [setRun]
    rw [ih _ _ (by omega)]
    have hk : k < 16 := by omega
    by_cases h1 : k + 1 ≤ r.val ∧ r.val < k + 1 + bs.length
    · have h2 : k ≤ r.val ∧ r.val < k + (b :: bs).length := by simp; omega
      rw [dif_pos h1, dif_pos h2]
      have e : r.val - k = (r.val - (k + 1)) + 1 := by omega
      simp [e]
    · rw [dif_neg h1]
      by_cases h3 : r.val = k
      · have h2 : k ≤ r.val ∧ r.val < k + (b :: bs).length := by simp; omega
        rw [dif_pos h2]
        subst h3
        simp
      · have h2 : ¬ (k ≤ r.val ∧ r.val < k + (b :: bs).length) := by simp; omega
        rw [dif_neg h2]
        have h4 : k ≠ r.val := fun e => h3 e.symm
        simp [h4]

@[simp] theorem State.run_length (s : State) (x : Reg) : (s.run x).length = x.val + 1 := by
  simp [State.run, runLength]

theorem State.run_get (s : State) (x k : Reg) (h : k ≤ x) :
    (s.run x)[k.val]'(by simp; omega) = s.reg k := by
  simp [State.run, State.reg]

@[simp] theorem bcdDigits_length (b : Byte) : (bcdDigits b).length = 3 := rfl

/-! ## The stack -/

theorem spUp_val {p : Fin 17} (h : p.val < 16) : (spUp p).val = p.val + 1 := by
  simp [spUp, Fin.ofNat]; omega

theorem spDown_val (p : Fin 17) : (spDown p).val = p.val - 1 := by
  simp [spDown, Fin.ofNat]; omega

theorem stackSlot_val {p : Fin 17} (h : p.val < 16) : (stackSlot p).val = p.val := by
  simp [stackSlot, Fin.ofNat]; omega

theorem stackSlot_eq {p : Fin 17} {k : Fin 16} (h : p.val = k.val) : stackSlot p = k :=
  Fin.ext (by rw [stackSlot_val (by omega)]; exact h)

/-- A push writes the entry at `SP` and no other. -/
theorem State.push_get {s : State} (a : Word) {k : Fin 16} (h : s.sp.val = k.val) (j : Fin 16) :
    (s.push a).stk[j] = if j = k then a else s.stk[j] := by
  have hs := stackSlot_eq h
  simp only [State.push, hs]
  by_cases e : j = k
  · subst e; simp
  · have e' : k.val ≠ j.val := fun h => e (Fin.ext h.symm)
    simp [e, Vector.getElem_set_ne _ _ e']

/-! ## The key test (45_family_E_keys.md R162) -/

theorem keyDown_of_le {keys : Word} {k : Byte} (h : k.toNat ≤ 15) :
    keyDown keys k = some (keys.getLsbD k.toNat) := by
  have : ¬ 15 < k.toNat := by omega
  simp [keyDown, this]

theorem keyDown_of_gt {keys : Word} {k : Byte} (h : 15 < k.toNat) : keyDown keys k = none := by
  simp [keyDown, h]

/-! ## The display (44_family_D_draw.md R151) -/

theorem pixelIndex_lt (x y : Nat) : pixelIndex x y < 2048 := by
  unfold pixelIndex; omega

theorem pixelIndex_inj {x y px py : Nat} :
    pixelIndex x y = pixelIndex px py ↔ x % 64 = px % 64 ∧ y % 32 = py % 32 := by
  unfold pixelIndex; omega

/-- Inverting a pixel inverts that pixel and no other. -/
theorem pixelOn_togglePixel (d : Display) (x y px py : Nat) :
    pixelOn (togglePixel d x y) px py =
      (pixelOn d px py ^^ decide (x % 64 = px % 64 ∧ y % 32 = py % 32)) := by
  have h := pixelIndex_lt x y
  simp only [pixelOn, togglePixel, BitVec.getLsbD_xor, BitVec.getLsbD_twoPow, ← pixelIndex_inj, h,
    decide_true, Bool.true_and]

/-- Two displays with the same pixels are the same. -/
theorem display_ext {d e : Display} (h : ∀ x y, x < 64 → y < 32 → pixelOn d x y = pixelOn e x y) : d = e := by
  apply BitVec.eq_of_getLsbD_eq
  intro i hi
  have := h (i % 64) (i / 64) (by omega) (by omega)
  have e : pixelIndex (i % 64) (i / 64) = i := by unfold pixelIndex; omega
  simpa [pixelOn, e] using this

/-- A set sprite bit of byte `b`, drawn from `x0` on in row `py`, lies on pixel `(px, qy)`, in the first `n` columns. -/
def ColOn (b : Byte) (x0 py n px qy : Nat) : Prop :=
  ∃ c, c < n ∧ spriteBit b c = true ∧ (x0 + c) % 64 = px % 64 ∧ py % 32 = qy % 32

/-- The first columns of a row: each pixel under a set bit is inverted once, and the collision bit notes the lit
ones among them. -/
theorem drawCols_spec (b : Byte) (x0 py n : Nat) (d : Drawing) (hn : n ≤ 64) :
    (∀ px qy, (ColOn b x0 py n px qy → pixelOn (drawCols b x0 py n d).disp px qy = !pixelOn d.disp px qy) ∧
      (¬ ColOn b x0 py n px qy → pixelOn (drawCols b x0 py n d).disp px qy = pixelOn d.disp px qy)) ∧
    ((drawCols b x0 py n d).coll = true ↔
      d.coll = true ∨ ∃ px qy, ColOn b x0 py n px qy ∧ pixelOn d.disp px qy = true) := by
  induction n with
  | zero => simp [drawCols, ColOn]
  | succ n ih =>
    obtain ⟨ihp, ihc⟩ := ih (by omega)
    have hmono : ∀ px qy, ColOn b x0 py n px qy → ColOn b x0 py (n + 1) px qy := by
      rintro px qy ⟨c, hc, h⟩; exact ⟨c, by omega, h⟩
    have hstep : ∀ px qy, ColOn b x0 py (n + 1) px qy → ColOn b x0 py n px qy ∨
        (spriteBit b n = true ∧ (x0 + n) % 64 = px % 64 ∧ py % 32 = qy % 32) := by
      rintro px qy ⟨c, hc, h⟩
      by_cases hcn : c = n
      · subst hcn; exact .inr h
      · exact .inl ⟨c, by omega, h⟩
    have hnew : ¬ ColOn b x0 py n (x0 + n) py := by
      rintro ⟨c, hc, -, h, -⟩; omega
    simp only [drawCols, drawPixel]
    cases hb : spriteBit b n with
    | false =>
      have hiff : ∀ px qy, ColOn b x0 py (n + 1) px qy ↔ ColOn b x0 py n px qy := by
        intro px qy
        refine ⟨fun h => ?_, hmono px qy⟩
        rcases hstep px qy h with h | ⟨h, -⟩
        · exact h
        · rw [hb] at h; cases h
      simp only [hiff]
      exact ⟨ihp, ihc⟩
    | true =>
      simp only [if_true]
      have hself : ColOn b x0 py (n + 1) (x0 + n) py := ⟨n, by omega, hb, rfl, rfl⟩
      refine ⟨fun px qy => ?_, ?_⟩
      · rw [pixelOn_togglePixel]
        by_cases hhere : (x0 + n) % 64 = px % 64 ∧ py % 32 = qy % 32
        · have h1 : ¬ ColOn b x0 py n px qy := by
            rintro ⟨c, hc, -, h, -⟩; omega
          have h2 : ColOn b x0 py (n + 1) px qy := ⟨n, by omega, hb, hhere⟩
          refine ⟨fun _ => ?_, fun h => absurd h2 h⟩
          rw [(ihp px qy).2 h1]
          simp [hhere]
        · refine ⟨fun h => ?_, fun h => ?_⟩
          · rcases hstep px qy h with h | ⟨-, h⟩
            · rw [(ihp px qy).1 h]; simp [hhere]
            · exact absurd h hhere
          · rw [(ihp px qy).2 fun h' => h (hmono px qy h')]; simp [hhere]
      · rw [Bool.or_eq_true, ihc, (ihp (x0 + n) py).2 hnew]
        constructor
        · rintro ((h | ⟨px, qy, h, hp⟩) | h)
          · exact .inl h
          · exact .inr ⟨px, qy, hmono px qy h, hp⟩
          · exact .inr ⟨x0 + n, py, hself, h⟩
        · rintro (h | ⟨px, qy, h, hp⟩)
          · exact .inl (.inl h)
          · rcases hstep px qy h with h | ⟨-, h⟩
            · exact .inl (.inr ⟨px, qy, h, hp⟩)
            · right
              rw [← hp]
              unfold pixelOn
              rw [pixelIndex_inj.mpr h]

/-- A set sprite bit of the rows `bs`, drawn from row `r` on at `(x0, y0)`, lies on pixel `(px, qy)`. -/
def RowsOn (x0 y0 r : Nat) (bs : List Byte) (px qy : Nat) : Prop :=
  ∃ (k : Nat) (h : k < bs.length), ColOn bs[k] x0 (y0 + (r + k)) 8 px qy

/-- The rows of a sprite, at most 32 of them: each pixel under a set bit is inverted once, and the collision bit
notes the lit ones among them (44_family_D_draw.md R152). -/
theorem drawRows_spec (x0 y0 : Nat) (bs : List Byte) (r : Nat) (d : Drawing) (hlen : bs.length ≤ 32) :
    (∀ px qy, (RowsOn x0 y0 r bs px qy → pixelOn (drawRows x0 y0 r bs d).disp px qy = !pixelOn d.disp px qy) ∧
      (¬ RowsOn x0 y0 r bs px qy → pixelOn (drawRows x0 y0 r bs d).disp px qy = pixelOn d.disp px qy)) ∧
    ((drawRows x0 y0 r bs d).coll = true ↔
      d.coll = true ∨ ∃ px qy, RowsOn x0 y0 r bs px qy ∧ pixelOn d.disp px qy = true) := by
  induction bs generalizing r d with
  | nil => simp [drawRows, RowsOn]
  | cons b bs ih =>
    simp only [List.length_cons] at hlen
    obtain ⟨hp, hc⟩ := drawCols_spec b x0 (y0 + r) 8 d (by omega)
    obtain ⟨ihp, ihc⟩ := ih (r + 1) (drawCols b x0 (y0 + r) 8 d) (by omega)
    have hsplit : ∀ px qy, RowsOn x0 y0 r (b :: bs) px qy ↔
        ColOn b x0 (y0 + r) 8 px qy ∨ RowsOn x0 y0 (r + 1) bs px qy := by
      intro px qy
      constructor
      · rintro ⟨k, hk, h⟩
        cases k with
        | zero => exact .inl (by simpa using h)
        | succ k =>
          refine .inr ⟨k, by simpa using hk, ?_⟩
          have e : y0 + (r + 1 + k) = y0 + (r + (k + 1)) := by omega
          simpa [e] using h
      · rintro (h | ⟨k, hk, h⟩)
        · exact ⟨0, by simp, by simpa using h⟩
        · refine ⟨k + 1, by simpa using hk, ?_⟩
          have e : y0 + (r + (k + 1)) = y0 + (r + 1 + k) := by omega
          simpa [e] using h
    have hdisj : ∀ px qy, ColOn b x0 (y0 + r) 8 px qy → ¬ RowsOn x0 y0 (r + 1) bs px qy := by
      rintro px qy ⟨c, -, -, -, h⟩ ⟨k, hk, c', -, -, -, h'⟩; omega
    simp only [drawRows]
    refine ⟨fun px qy => ⟨fun h => ?_, fun h => ?_⟩, ?_⟩
    · rcases (hsplit px qy).mp h with h | h
      · rw [(ihp px qy).2 (hdisj px qy h), (hp px qy).1 h]
      · have hn : ¬ ColOn b x0 (y0 + r) 8 px qy := fun h' => hdisj px qy h' h
        rw [(ihp px qy).1 h, (hp px qy).2 hn]
    · have hn := fun h' => h ((hsplit px qy).mpr h')
      rw [(ihp px qy).2 fun h' => hn (.inr h'), (hp px qy).2 fun h' => hn (.inl h')]
    · rw [ihc, hc]
      constructor
      · rintro ((h | ⟨px, qy, h, hl⟩) | ⟨px, qy, h, hl⟩)
        · exact .inl h
        · exact .inr ⟨px, qy, (hsplit px qy).mpr (.inl h), hl⟩
        · have hn : ¬ ColOn b x0 (y0 + r) 8 px qy := fun h' => hdisj px qy h' h
          rw [(hp px qy).2 hn] at hl
          exact .inr ⟨px, qy, (hsplit px qy).mpr (.inr h), hl⟩
      · rintro (h | ⟨px, qy, h, hl⟩)
        · exact .inl (.inl h)
        · rcases (hsplit px qy).mp h with h | h
          · exact .inl (.inr ⟨px, qy, h, hl⟩)
          · have hn : ¬ ColOn b x0 (y0 + r) 8 px qy := fun h' => hdisj px qy h' h
            refine .inr ⟨px, qy, h, ?_⟩
            rw [(hp px qy).2 hn]; exact hl

/-! ## The completion of a key wait (60_exceptions.md R215) -/

theorem mem_keysOf {mask : Word} {k : Key} : k ∈ keysOf mask ↔ mask.getLsbD k.val = true := by
  simp [keysOf]

theorem keysOf_ne_nil {mask : Word} (h : mask ≠ 0) : keysOf mask ≠ [] := by
  intro he
  apply h
  apply BitVec.eq_of_getLsbD_eq
  intro i hi
  have : (⟨i, hi⟩ : Key) ∉ keysOf mask := by simp [he]
  rw [mem_keysOf] at this
  simpa using this

/-- Whatever the free choice, the key reported is one of those offered. -/
theorem pickKey_mem (c : Nat) (ks : List Key) (h : ks ≠ []) : pickKey c ks ∈ ks := by
  unfold pickKey
  split
  · simp
  · have hl : 0 < ks.length := List.length_pos_of_ne_nil h
    rw [List.getD_eq_getElem _ _ (Nat.mod_lt _ hl)]
    exact List.getElem_mem _

end Sys2Proof.Machine
end

