-- ==== Sys2Proof/Laws/PerInstr.lean ====
section
/-! SUPPORT. Per instruction: its word lies in its row of the opcode map (30_encoding.md R74), `W & mask = match`. -/

namespace Sys2Proof.Laws.RowMatch

/-- The word of the instruction is one of its row's words. -/
def Statement (i : Instr) : Prop := i.row.covers (encode i) = true

theorem clear (ign : Nibble) : Statement (.clear ign) :=
  covers_formatXI_low rfl

theorem ret (ign : Nibble) : Statement (.ret ign) :=
  covers_formatXI_low rfl

theorem jump (nnn : Addr) : Statement (.jump nnn) :=
  covers_formatA rfl

theorem call (nnn : Addr) : Statement (.call nnn) :=
  covers_formatA rfl

theorem skipEqImm (x : Reg) (nn : Byte) : Statement (.skipEqImm x nn) :=
  covers_formatXI rfl

theorem skipNeqImm (x : Reg) (nn : Byte) : Statement (.skipNeqImm x nn) :=
  covers_formatXI rfl

theorem skipEqReg (x y : Reg) (ign : Nibble) : Statement (.skipEqReg x y ign) :=
  covers_formatXY rfl

theorem loadImm (x : Reg) (nn : Byte) : Statement (.loadImm x nn) :=
  covers_formatXI rfl

theorem addImm (x : Reg) (nn : Byte) : Statement (.addImm x nn) :=
  covers_formatXI rfl

theorem move (x y : Reg) : Statement (.move x y) :=
  covers_formatXY_low rfl

theorem or (x y : Reg) : Statement (.or x y) :=
  covers_formatXY_low rfl

theorem and (x y : Reg) : Statement (.and x y) :=
  covers_formatXY_low rfl

theorem xor (x y : Reg) : Statement (.xor x y) :=
  covers_formatXY_low rfl

theorem addCarry (x y : Reg) : Statement (.addCarry x y) :=
  covers_formatXY_low rfl

theorem subBorrow (x y : Reg) : Statement (.subBorrow x y) :=
  covers_formatXY_low rfl

theorem shiftRight (x : Reg) (ign : Nibble) : Statement (.shiftRight x ign) :=
  covers_formatXY_low rfl

theorem subBorrowRev (x y : Reg) : Statement (.subBorrowRev x y) :=
  covers_formatXY_low rfl

theorem shiftLeft (x : Reg) (ign : Nibble) : Statement (.shiftLeft x ign) :=
  covers_formatXY_low rfl

theorem skipNeqReg (x y : Reg) (ign : Nibble) : Statement (.skipNeqReg x y ign) :=
  covers_formatXY rfl

theorem loadIndex (nnn : Addr) : Statement (.loadIndex nnn) :=
  covers_formatA rfl

theorem jumpPlusV0 (nnn : Addr) : Statement (.jumpPlusV0 nnn) :=
  covers_formatA rfl

theorem random (x : Reg) (nn : Byte) : Statement (.random x nn) :=
  covers_formatXI rfl

theorem drawSprite (x y : Reg) (n : Fin 16) : Statement (.drawSprite x y n) :=
  covers_formatXY rfl

theorem skipKeyPressed (x : Reg) : Statement (.skipKeyPressed x) :=
  covers_formatXI_low rfl

theorem skipKeyNotPressed (x : Reg) : Statement (.skipKeyNotPressed x) :=
  covers_formatXI_low rfl

theorem readDelay (x : Reg) : Statement (.readDelay x) :=
  covers_formatXI_low rfl

theorem waitKey (x : Reg) : Statement (.waitKey x) :=
  covers_formatXI_low rfl

theorem setDelay (x : Reg) : Statement (.setDelay x) :=
  covers_formatXI_low rfl

theorem setSound (x : Reg) : Statement (.setSound x) :=
  covers_formatXI_low rfl

theorem addIndex (x : Reg) : Statement (.addIndex x) :=
  covers_formatXI_low rfl

theorem fontAddr (x : Reg) : Statement (.fontAddr x) :=
  covers_formatXI_low rfl

theorem bcd (x : Reg) : Statement (.bcd x) :=
  covers_formatXI_low rfl

theorem storeRegs (x : Reg) : Statement (.storeRegs x) :=
  covers_formatXI_low rfl

theorem loadRegs (x : Reg) : Statement (.loadRegs x) :=
  covers_formatXI_low rfl

end Sys2Proof.Laws.RowMatch
end

