-- ==== Sys2Proof/Laws/Step.lean ====
section
/-! SUPPORT. What a step can do, said once: the fetch, the Step event, the invariant's small pieces. -/

namespace Sys2Proof.Machine

/-! ## The fetch -/

theorem fetchWord_of_le {s : State} (h : s.pc.toNat ≤ 0xFFE) :
    fetchWord s = some (wordOfBytes (s.mem.read s.pc.toNat) (s.mem.read (s.pc.toNat + 1))) := by
  have hf : rangeFaults s.pc.toNat 2 = false := rangeFaults_false.mpr (by omega)
  simp [fetchWord, hf]

theorem fetchWord_of_gt {s : State} (h : 0xFFE < s.pc.toNat) : fetchWord s = none := by
  have hf : rangeFaults s.pc.toNat 2 = true := rangeFaults_iff.mpr (by omega)
  simp [fetchWord, hf]

theorem fetchWord_some_le {s : State} {w : Word} (h : fetchWord s = some w) : s.pc.toNat ≤ 0xFFE := by
  by_contra hc
  rw [fetchWord_of_gt (by omega)] at h
  cases h

theorem wordOfBytes_toNat (a b : Byte) : (wordOfBytes a b).toNat = 256 * a.toNat + b.toNat := by
  have h : (wordOfBytes a b).toNat = a.toNat <<< 8 ||| b.toNat := BitVec.toNat_append a b
  rw [h, ← Nat.shiftLeft_add_eq_or_of_lt b.isLt, Nat.shiftLeft_eq]
  omega

/-- The address after the two bytes of a good fetch does not wrap. -/
theorem pc_add_two {p : Word} (h : p.toNat ≤ 0xFFFD) : (p + 2).toNat = p.toNat + 2 := by
  simp [BitVec.toNat_add]; omega

/-! ## The Step event -/

/-- Everything a Step that answers a next state can have done (30_encoding.md R73, 60_exceptions.md R223). -/
theorem performStep_cases {s t : State} (h : performStep s = .next t) :
    s.halted = false ∧
      ((s.paused = true ∧ t = s) ∨
       (s.paused = false ∧ s.await = true ∧ t = s) ∨
       (s.paused = false ∧ s.await = false ∧ 0xFFE < s.pc.toNat ∧ t = s.raised .memoryOutOfRange) ∨
       (s.paused = false ∧ s.await = false ∧ s.pc.toNat ≤ 0xFFE ∧
         ∃ w, fetchWord s = some w ∧
           ((∃ i, decodeWord w = .ok i ∧ exec i (s.fetched w) = .next t) ∨
            (∃ e, decodeWord w = .error e ∧ t = s.fetched w)))) := by
  unfold performStep at h
  split at h
  · cases h
  rename_i hh
  refine ⟨by simpa using hh, ?_⟩
  split at h
  · rename_i hp
    cases h
    exact .inl ⟨hp, rfl⟩
  rename_i hp
  have hp : s.paused = false := by simpa using hp
  unfold fetchExecute at h
  split at h
  · rename_i ha
    cases h
    exact .inr (.inl ⟨hp, ha, rfl⟩)
  rename_i ha
  have ha : s.await = false := by simpa using ha
  by_cases hpc : s.pc.toNat ≤ 0xFFE
  · refine .inr (.inr (.inr ⟨hp, ha, hpc, ?_⟩))
    rw [fetchWord_of_le hpc] at h ⊢
    refine ⟨_, rfl, ?_⟩
    simp only [runWord] at h
    split at h
    · rename_i i hi
      exact .inl ⟨i, hi, h⟩
    · rename_i e he
      cases h
      exact .inr ⟨e, he, rfl⟩
  · rw [fetchWord_of_gt (by omega)] at h
    cases h
    exact .inr (.inr (.inl ⟨hp, ha, by omega, rfl⟩))

/-- A Step of a running machine whose word decodes runs that instruction. -/
theorem performStep_exec {s : State} {w : Word} {i : Instr} (hh : s.halted = false) (hp : s.paused = false)
    (ha : s.await = false) (hw : fetchWord s = some w) (hi : decodeWord w = .ok i) :
    performStep s = exec i (s.fetched w) := by
  simp [performStep, fetchExecute, runWord, hh, hp, ha, hw, hi]

/-- A Step of a running machine whose word is a no-op word performs the fetch only. -/
theorem performStep_noOp {s : State} {w : Word} {e : NoRow} (hh : s.halted = false) (hp : s.paused = false)
    (ha : s.await = false) (hw : fetchWord s = some w) (he : decodeWord w = .error e) :
    performStep s = .next (s.fetched w) := by
  simp [performStep, fetchExecute, runWord, hh, hp, ha, hw, he]

/-! ## Which event a step performs -/

theorem step_nil {s : State} (h : s.pending = []) : step s = performStep s := by
  simp [step, performNext, h]

theorem step_cons {s : State} {e : Event} {rest : List Event} (h : s.pending = e :: rest) :
    step s = perform e { s with pending := rest } := by
  simp [step, performNext, h]

/-- An instruction slot performs a Step, whether it is pending as an event or stands for an empty list. -/
theorem SlotNext.step_eq {s u : State} (h : SlotNext s u) : step s = performStep u := by
  rcases h with ⟨hp, rfl⟩ | ⟨rest, hp, rfl⟩
  · exact step_nil hp
  · exact step_cons hp

/-- Taking a slot off the list changes the list only. -/
theorem SlotNext.frame {s u : State} (h : SlotNext s u) : u = { s with pending := u.pending } := by
  rcases h with ⟨-, rfl⟩ | ⟨rest, -, rfl⟩ <;> rfl

/-! ## Ticks -/

theorem tickDown_toNat (b : Byte) : (tickDown b).toNat = b.toNat - 1 := by
  unfold tickDown
  split
  · simp [*]
  · rename_i h
    have : b.toNat ≠ 0 := fun e => h (BitVec.eq_of_toNat_eq (by simpa using e))
    rw [BitVec.toNat_sub]
    have := b.isLt
    simp
    omega

end Sys2Proof.Machine
end

