-- ==== Sys2Proof/Tests/Slice0.lean ====
section
/-! SUPPORT. Tests. Words are written out from the patterns of 30_encoding.md R74; the expected results of one step
are rows of 95_test_vectors.md (sections 2.1 to 2.8 and the trace P5), never the model's own answer. The last part
shows, for each statement with hypotheses, a concrete state that meets them. -/

namespace Sys2Proof.Tests

open Sys2Proof Sys2Proof.Machine

/-! ## Helpers -/

/-- A register file with the given values, 0 elsewhere. -/
def regs (vs : List (Reg × Byte)) : Vector Byte 16 :=
  vs.foldl (fun v p => v.set p.1 p.2) (Vector.replicate 16 0)

/-- The state after reset with the word at 0x200 and the given registers. -/
def start (w : Nat) (vs : List (Reg × Byte)) : State :=
  { State.reset.withFetchWord 16 w with v := regs vs }

/-- What a step leaves, if it answers a next state. -/
def after (s : State) : Option State :=
  match step s with
  | .next t => some t
  | _ => none

/-- Where a step stops, if it stops. -/
def stopOf (s : State) : Option Machine.Fault :=
  match step s with
  | .fault f => some f
  | _ => none

/-- One reading of the state after one step. -/
def got {α : Type} (s : State) (f : State → α) : Option α := (after s).map f

/-- A display with these pixels lit. -/
def lit (ps : List (Nat × Nat)) : Display := ps.foldl (fun d p => togglePixel d p.1 p.2) 0

/-- The fault code, `HALTED` and `PC`. -/
def fate (s : State) : FaultCode × Bool × Word := (s.fault, s.halted, s.pc)

/-! ## WellFormed: each check refuses an ill-formed term -/

theorem test_wf_clear : (Instr.clear 3).wellFormed = false ∧ (Instr.clear 0).wellFormed = true := by decide
theorem test_wf_ret : (Instr.ret 7).wellFormed = false ∧ (Instr.ret 0).wellFormed = true := by decide
theorem test_wf_skipEqReg :
    (Instr.skipEqReg 1 2 3).wellFormed = false ∧ (Instr.skipEqReg 1 2 0).wellFormed = true := by decide
theorem test_wf_skipNeqReg :
    (Instr.skipNeqReg 1 2 15).wellFormed = false ∧ (Instr.skipNeqReg 1 2 0).wellFormed = true := by decide
theorem test_wf_shiftRight :
    (Instr.shiftRight 1 9).wellFormed = false ∧ (Instr.shiftRight 1 0).wellFormed = true := by decide
theorem test_wf_shiftLeft :
    (Instr.shiftLeft 1 9).wellFormed = false ∧ (Instr.shiftLeft 1 0).wellFormed = true := by decide
theorem test_wf_image :
    imageFits (List.replicate 3585 0xAB) = false ∧ imageFits (List.replicate 3584 0xAB) = true := by
  simp only [imageFits, List.length_replicate]; decide

/-! ## Decode: one word for each constructor -/

theorem test_decode_family0 :
    decodeWord 0x00E0 = .ok (.clear 0) ∧ decodeWord 0x0FE0 = .ok (.clear 15) ∧
    decodeWord 0x00EE = .ok (.ret 0) ∧ decodeWord 0x0AEE = .ok (.ret 10) := by decide
theorem test_decode_jump_call :
    decodeWord 0x1FFF = .ok (.jump 0xFFF) ∧ decodeWord 0x2ABC = .ok (.call 0xABC) := by decide
theorem test_decode_skips :
    decodeWord 0x3F12 = .ok (.skipEqImm 15 0x12) ∧ decodeWord 0x4A34 = .ok (.skipNeqImm 10 0x34) ∧
    decodeWord 0x512F = .ok (.skipEqReg 1 2 15) ∧ decodeWord 0x9127 = .ok (.skipNeqReg 1 2 7) := by decide
theorem test_decode_immediates :
    decodeWord 0x6FAB = .ok (.loadImm 15 0xAB) ∧ decodeWord 0x7F02 = .ok (.addImm 15 2) := by decide
theorem test_decode_family8 :
    decodeWord 0x8120 = .ok (.move 1 2) ∧ decodeWord 0x8121 = .ok (.or 1 2) ∧
    decodeWord 0x8122 = .ok (.and 1 2) ∧ decodeWord 0x8123 = .ok (.xor 1 2) ∧
    decodeWord 0x8124 = .ok (.addCarry 1 2) ∧ decodeWord 0x8125 = .ok (.subBorrow 1 2) ∧
    decodeWord 0x8216 = .ok (.shiftRight 2 1) ∧ decodeWord 0x8127 = .ok (.subBorrowRev 1 2) ∧
    decodeWord 0x821E = .ok (.shiftLeft 2 1) := by decide
theorem test_decode_AtoD :
    decodeWord 0xA123 = .ok (.loadIndex 0x123) ∧ decodeWord 0xB2FE = .ok (.jumpPlusV0 0x2FE) ∧
    decodeWord 0xC10F = .ok (.random 1 0x0F) ∧ decodeWord 0xD125 = .ok (.drawSprite 1 2 5) := by decide
theorem test_decode_familyE :
    decodeWord 0xE19E = .ok (.skipKeyPressed 1) ∧ decodeWord 0xE1A1 = .ok (.skipKeyNotPressed 1) := by decide
theorem test_decode_familyF :
    decodeWord 0xF107 = .ok (.readDelay 1) ∧ decodeWord 0xF50A = .ok (.waitKey 5) ∧
    decodeWord 0xF115 = .ok (.setDelay 1) ∧ decodeWord 0xF118 = .ok (.setSound 1) ∧
    decodeWord 0xF11E = .ok (.addIndex 1) ∧ decodeWord 0xF129 = .ok (.fontAddr 1) ∧
    decodeWord 0xF133 = .ok (.bcd 1) ∧ decodeWord 0xFF55 = .ok (.storeRegs 15) ∧
    decodeWord 0xFF65 = .ok (.loadRegs 15) := by decide
/-- No-op words, rejected by the name of their family (R75). -/
theorem test_decode_noOp :
    decodeWord 0x0000 = .error .family0 ∧ decodeWord 0x0123 = .error .family0 ∧
    decodeWord 0x8128 = .error .family8 ∧ decodeWord 0x812F = .error .family8 ∧
    decodeWord 0xE19F = .error .familyE ∧ decodeWord 0xF175 = .error .familyF := by decide
/-- The bytes of a word, high byte first, and the table's numbering of its bits. -/
theorem test_decode_bytes :
    decode [0x60, 0x55, 0xAA] = .ok (.loadImm 0 0x55, [0xAA]) ∧
    decodeTableWord 16 0x6055 = some (.loadImm 0 0x55) ∧ decodeTableWord 16 0x8128 = none := by decide

/-! ## One step of each instruction (95_test_vectors.md section 2) -/

theorem test_clear :
    got { start 0x0FE0 [(15, 1)] with disp := lit [(5, 7), (63, 31)] } (fun t => (t.disp, t.reg 15)) =
      some (0, 1) := by decide +kernel
theorem test_ret :
    got { start 0x0AEE [] with sp := 2, stk := (Vector.replicate 16 0).set 1 0x345 }
      (fun t => (t.sp, t.pc, t.stk[1])) = some (1, 0x345, 0x345) := by decide
theorem test_ret_underflow : got (start 0x00EE []) fate = some (.stackUnderflow, true, 0x202) := by decide
theorem test_jump_odd : got (start 0x1201 []) State.pc = some 0x201 := by decide
theorem test_call_last :
    got { start 0x2ABC [] with sp := 15 } (fun t => (t.stk[15], t.sp, t.pc)) = some (0x202, 16, 0xABC) := by decide
theorem test_call_overflow :
    got { start 0x2ABC [] with sp := 16 } fate = some (.stackOverflow, true, 0x202) := by decide
theorem test_skipEqImm :
    got (start 0x3FFF [(15, 0xFF)]) State.pc = some 0x204 ∧ got (start 0x3001 []) State.pc = some 0x202 := by decide
theorem test_skipNeqImm :
    got (start 0x4000 []) State.pc = some 0x202 ∧ got (start 0x4001 []) State.pc = some 0x204 := by decide
theorem test_skipEqReg :
    got (start 0x512F [(1, 3), (2, 3)]) State.pc = some 0x204 ∧
    got (start 0x5120 [(1, 3), (2, 4)]) State.pc = some 0x202 := by decide
theorem test_loadImm : got (start 0x6FAB []) (fun t => t.reg 15) = some 0xAB := by decide
theorem test_addImm :
    got (start 0x7001 [(0, 0xFF)]) (fun t => (t.reg 0, t.reg 15)) = some (0, 0) ∧
    got (start 0x7F02 [(15, 0xFF)]) (fun t => t.reg 15) = some 1 := by decide
theorem test_move :
    got (start 0x8120 [(1, 0x11), (2, 0x22), (15, 1)]) (fun t => (t.reg 1, t.reg 2, t.reg 15)) =
      some (0x22, 0x22, 1) := by decide
theorem test_or :
    got (start 0x8121 [(1, 0x50), (2, 0x05), (15, 1)]) (fun t => (t.reg 1, t.reg 15)) = some (0x55, 1) := by decide
theorem test_and :
    got (start 0x8122 [(1, 0x5A), (2, 0x0F), (15, 1)]) (fun t => (t.reg 1, t.reg 15)) = some (0x0A, 1) := by decide
theorem test_xor :
    got (start 0x8123 [(1, 0x5A), (2, 0xFF), (15, 1)]) (fun t => (t.reg 1, t.reg 15)) = some (0xA5, 1) := by decide
theorem test_addCarry :
    got (start 0x8014 [(0, 0x80), (1, 0x7F), (15, 1)]) (fun t => (t.reg 0, t.reg 15)) = some (0xFF, 0) ∧
    got (start 0x81F4 [(15, 3), (1, 0xFE)]) (fun t => (t.reg 1, t.reg 15)) = some (0x01, 1) := by decide
theorem test_addCarry_VF :
    got (start 0x8F14 [(15, 0xF0), (1, 0x20)]) (fun t => (t.reg 1, t.reg 15)) = some (0x20, 1) := by decide
theorem test_subBorrow :
    got (start 0x8015 [(0, 5), (1, 5)]) (fun t => (t.reg 0, t.reg 15)) = some (0, 1) ∧
    got (start 0x81F5 [(15, 2), (1, 1)]) (fun t => (t.reg 1, t.reg 15)) = some (0xFF, 0) := by decide
theorem test_shiftRight :
    got (start 0x8216 [(2, 4), (1, 0xFF)]) (fun t => (t.reg 2, t.reg 15)) = some (2, 0) ∧
    got (start 0x8F06 [(15, 3)]) (fun t => t.reg 15) = some 1 := by decide
theorem test_subBorrowRev :
    got (start 0x8017 [(0, 1), (1, 0)]) (fun t => (t.reg 0, t.reg 15)) = some (0xFF, 0) ∧
    got (start 0x8017 [(0, 0x0A), (1, 0x64)]) (fun t => (t.reg 0, t.reg 15)) = some (0x5A, 1) := by decide
theorem test_shiftLeft :
    got (start 0x820E [(2, 0x40), (15, 1)]) (fun t => (t.reg 2, t.reg 15)) = some (0x80, 0) ∧
    got (start 0x8F0E [(15, 0x80)]) (fun t => t.reg 15) = some 1 := by decide
theorem test_skipNeqReg :
    got (start 0x9127 [(1, 3), (2, 4)]) State.pc = some 0x204 ∧
    got (start 0x9330 [(3, 9)]) State.pc = some 0x202 := by decide
theorem test_loadIndex : got (start 0xAFFF []) State.idx = some 0xFFF := by decide
theorem test_jumpPlusV0 :
    got (start 0xB2FE [(0, 3)]) State.pc = some 0x301 ∧ got (start 0xBFFF [(0, 0xFF)]) State.pc = some 0x10FE := by
  decide
theorem test_random :
    (randomWith 0xA5 1 0xF0 (start 0xC1F0 [(1, 0x77)])).reg 1 = 0xA0 ∧
    (randomWith 0x3C 15 0xFF (start 0xCFFF [])).reg 15 = 0x3C := by decide
theorem test_random_none : got (start 0xC1F0 []) (fun t => (t.rndDraws, t.pc)) = some (1, 0x202) := by decide

/-- Both axes wrap: 124 mod 64 = 60, 37 mod 32 = 5. -/
theorem test_drawSprite_wrap :
    got { start 0xD011 [(0, 124), (1, 37)] with idx := 0x300, mem := [(0x200, 0xD0), (0x201, 0x11), (0x300, 0xFF)] }
      (fun t => (t.disp, t.reg 15)) =
      some (lit [(60, 5), (61, 5), (62, 5), (63, 5), (0, 5), (1, 5), (2, 5), (3, 5)], 0) := by decide +kernel
/-- A lit pixel goes off, and the flag is set. -/
theorem test_drawSprite_collision :
    got { start 0xD011 [] with idx := 0x300, mem := [(0x200, 0xD0), (0x201, 0x11), (0x300, 0x80)], disp := lit [(0, 0)] }
      (fun t => (t.disp, t.reg 15)) = some (0, 1) := by decide +kernel
theorem test_drawSprite_fault :
    got { start 0xD01F [(15, 1)] with idx := 0xFF2 } (fun t => (fate t, t.reg 15)) =
      some ((.memoryOutOfRange, true, 0x202), 1) := by decide
theorem test_skipKeyPressed :
    got { start 0xE19E [(1, 15)] with keys := 0x8000 } State.pc = some 0x204 ∧
    got { start 0xE19E [(1, 15)] with keys := 0x7FFF } State.pc = some 0x202 := by decide
theorem test_skipKeyPressed_bad :
    got { start 0xE19E [(1, 16)] with keys := 0xFFFF } fate = some (.keyIndexOutOfRange, true, 0x202) := by decide
theorem test_skipKeyNotPressed :
    got { start 0xE1A1 [(1, 15)] with keys := 0x8000 } State.pc = some 0x202 ∧
    got (start 0xE1A1 []) State.pc = some 0x204 := by decide
theorem test_skipKeyNotPressed_bad :
    got (start 0xE1A1 [(1, 0xFF)]) fate = some (.keyIndexOutOfRange, true, 0x202) := by decide
theorem test_readDelay : got { start 0xFF07 [(15, 1)] with dt := 5 } (fun t => t.reg 15) = some 5 := by decide
theorem test_waitKey :
    got (start 0xF50A []) (fun t => (t.await, t.waitX, t.pc, t.reg 5)) = some (true, 5, 0x202, 0) := by decide
theorem test_setDelay : got { start 0xF115 [] with dt := 9 } State.dt = some 0 := by decide
theorem test_setSound : got (start 0xF118 [(1, 0xFF)]) (fun t => (t.st, t.outs)) = some (0xFF, []) := by decide
theorem test_addIndex :
    got { start 0xF11E [(1, 1), (15, 1)] with idx := 0xFFFF } (fun t => (t.idx, t.reg 15)) = some (0, 1) ∧
    got { start 0xF11E [(1, 0xFF)] with idx := 0x0FFF } State.idx = some 0x10FE := by decide
theorem test_fontAddr :
    got (start 0xF129 [(1, 15)]) State.idx = some 0x4B ∧ got (start 0xF129 [(1, 255)]) State.idx = some 0x4FB := by
  decide
theorem test_bcd :
    got { start 0xF133 [(1, 123)] with idx := 0xFFD }
      (fun t => (t.mem.read 0xFFD, t.mem.read 0xFFE, t.mem.read 0xFFF, t.idx)) = some (1, 2, 3, 0xFFD) := by decide
theorem test_bcd_fault :
    got { start 0xF133 [(1, 123)] with idx := 0xFFE } (fun t => (t.fault, t.mem.read 0xFFE)) =
      some (.memoryOutOfRange, 0) := by decide
theorem test_storeRegs :
    got { start 0xF055 [(0, 0xAA), (1, 0xBB)] with idx := 0x300 }
      (fun t => (t.mem.read 0x300, t.mem.read 0x301, t.idx)) = some (0xAA, 0, 0x301) := by decide
theorem test_storeRegs_fault :
    got { start 0xFF55 [(0, 1)] with idx := 0xFF1 } (fun t => (t.fault, t.mem.read 0xFF1, t.idx)) =
      some (.memoryOutOfRange, 0, 0xFF1) := by decide
/-- Self-modifying code: the store reaches the second byte of the next word (R62, R237). -/
theorem test_storeRegs_next :
    got { start 0xF055 [(0, 0x42)] with idx := 0x203, mem := [(0x200, 0xF0), (0x201, 0x55), (0x202, 0x6A)] }
      fetchWord = some (some 0x6A42) := by decide
theorem test_loadRegs :
    got { start 0xF165 [(2, 0x99)] with
        idx := 0x300, mem := [(0x200, 0xF1), (0x201, 0x65), (0x300, 1), (0x301, 2), (0x302, 3)] }
      (fun t => (t.reg 0, t.reg 1, t.reg 2, t.idx)) = some (1, 2, 0x99, 0x302) := by decide
theorem test_loadRegs_fault :
    got { start 0xF165 [(0, 7)] with idx := 0xFFF } (fun t => (t.fault, t.reg 0, t.idx)) =
      some (.memoryOutOfRange, 7, 0xFFF) := by decide

/-! ## The fetch, and the other events (95_test_vectors.md section 2.8 and P5) -/

theorem test_noOp :
    got (start 0x8128 [(1, 0x5A), (15, 1)]) id =
      some { start 0x8128 [(1, 0x5A), (15, 1)] with pc := 0x202, ir := 0x8128 } := by decide +kernel
theorem test_fetch_last :
    got { State.reset with pc := 0xFFE, mem := [(0xFFE, 0x60), (0xFFF, 0x55)] } (fun t => (t.reg 0, t.pc)) =
      some (0x55, 0x1000) := by decide
theorem test_fetch_outside :
    got { State.reset with pc := 0x1000, ir := 0x6055 } (fun t => (fate t, t.ir)) =
      some ((.memoryOutOfRange, true, 0x1000), 0x6055) := by decide
theorem test_timerTick :
    got { State.reset with dt := 1, st := 0, pending := [.timerTick] } (fun t => (t.dt, t.st, t.outs)) =
      some (0, 0, []) ∧
    got { State.reset with dt := 0, st := 2, pending := [.timerTick] } (fun t => (t.dt, t.st, t.outs)) =
      some (0, 1, [.sndPulse]) := by decide
theorem test_timerTick_paused :
    got { State.reset with dt := 5, paused := true, pending := [.timerTick] } State.dt = some 5 := by decide
/-- P5 row 10: key 9 goes down while key 2 is held. -/
theorem test_padWrite_completes :
    got { State.reset with await := true, waitX := 1, keys := 4, pending := [.padWrite 0x204] }
      (fun t => (t.reg 1, t.keys, t.await)) = some (9, 0x204, false) := by decide
/-- P5 row 9: no transition. -/
theorem test_padWrite_held :
    got { State.reset with await := true, waitX := 1, keys := 4, pending := [.padWrite 4] }
      (fun t => (t.reg 1, t.keys, t.await)) = some (0, 4, true) := by decide
theorem test_hostHalt :
    got { State.reset with await := true, waitX := 5, pending := [.hostHalt] } (fun t => (t.halted, t.await, t.fault)) =
      some (true, true, .none) := by decide
theorem test_pauseToggle :
    got { State.reset with pending := [.hostPauseToggle] } State.paused = some true := by decide
theorem test_load :
    got { State.reset with halted := true, pc := 7, pending := [.load [0x22, 0x00]] }
      (fun t => (t.halted, t.pc, t.mem.read 0x200, t.mem.read 0x201, t.mem.read 0x202)) =
      some (false, 0x200, 0x22, 0, 0) := by decide
theorem test_halted_stops : stopOf { State.reset with halted := true } = some .hostHalted := by decide
/-- An instruction slot that is pending as an event is taken off the list. -/
theorem test_pending_step :
    got { start 0x6FAB [] with pending := [.step, .timerTick] } (fun t => (t.reg 15, t.pending)) =
      some (0xAB, [.timerTick]) := by decide
theorem test_ports :
    (dbgOut { State.reset with sp := 16, fault := .keyIndexOutOfRange }).sp = 16 ∧
    (dbgOut { State.reset with sp := 16, fault := .keyIndexOutOfRange }).fault = 4 ∧
    runState { State.reset with await := true } = .awaitingKey := by decide

/-! ## Witnesses: for each statement with hypotheses, a state and operands that meet them

Where a statement has several clauses, one witness stands at the boundary value of each. -/

/-- A running machine at the last address a fetch can use, with `LoadImm V0, 0x55` there. -/
def atEnd : State := { State.reset with pc := 0xFFE, mem := [(0xFFE, 0x60), (0xFFF, 0x55)] }

theorem witness_EncodeInvertsDecode : decodeWord 0x8AB6 = .ok (.shiftRight 10 11) := by decide

/-- A word that is an instruction, and one that is none. -/
theorem witness_DecoderFollowsOpcodeMap :
    decodeWord 0xD01F = .ok (.drawSprite 0 1 15) ∧ decodeWord 0x8128 = .error .family8 := by decide

theorem witness_StepRunsTheDecodedInstruction :
    (atEnd.halted = false ∧ atEnd.paused = false ∧ atEnd.await = false ∧ atEnd.pc.toNat ≤ 0xFFE ∧
      (0x6055 : Word).toNat =
        256 * (atEnd.mem.read atEnd.pc.toNat).toNat + (atEnd.mem.read (atEnd.pc.toNat + 1)).toNat ∧
      decodeWord 0x6055 = .ok (.loadImm 0 0x55)) ∧
    atEnd.pending = [] ∧ { atEnd with pending := [.step] }.pending = .step :: [] := by decide

/-- Reset memory holds the no-op word 0x0000 at 0x200; the slot stands for an empty list, or is pending. -/
theorem witness_NoOpWordChangesOnlyIrAndPc :
    let p : State := { State.reset with pending := [.step, .timerTick] }
    SlotNext State.reset State.reset ∧ SlotNext p { p with pending := [.timerTick] } ∧
    State.reset.halted = false ∧ State.reset.paused = false ∧ State.reset.await = false ∧
    State.reset.pc.toNat ≤ 0xFFE ∧
    (0 : Word).toNat = 256 * (State.reset.mem.read State.reset.pc.toNat).toNat +
      (State.reset.mem.read (State.reset.pc.toNat + 1)).toNat ∧
    decodeWord 0 = .error .family0 :=
  ⟨.inl ⟨rfl, rfl⟩, .inr ⟨_, rfl, rfl⟩, by decide⟩

theorem witness_FetchOutsideMemoryRaises :
    let s : State := { State.reset with pc := 0xFFF }
    let p : State := { s with pending := [.step] }
    SlotNext s s ∧ SlotNext p s ∧ s.halted = false ∧ s.paused = false ∧ s.await = false ∧ 0xFFE < s.pc.toNat :=
  ⟨.inl ⟨rfl, rfl⟩, .inr ⟨_, rfl, rfl⟩, by decide⟩

/-- Awaiting, paused, halted; the slot pending as an event or standing for an empty list. -/
theorem witness_SlotsThatExecuteNothing :
    let a : State := { State.reset with await := true }
    let p : State := { State.reset with paused := true, pending := [.step] }
    let h : State := { State.reset with halted := true }
    (SlotNext a a ∧ a.halted = false ∧ (a.paused = true ∨ a.await = true)) ∧
    (SlotNext p { p with pending := [] } ∧ p.halted = false ∧ (p.paused = true ∨ p.await = true)) ∧
    (SlotNext h h ∧ h.halted = true) :=
  ⟨⟨.inl ⟨rfl, rfl⟩, by decide⟩, ⟨.inr ⟨_, rfl, rfl⟩, by decide⟩, .inl ⟨rfl, rfl⟩, rfl⟩

/-- `PC` at its last fetchable value, and above it. -/
theorem witness_PlacedWordIsFetchedAndRun :
    atEnd.mem.wf = true ∧ atEnd.pc.toNat ≤ 0xFFE ∧ State.reset.mem.wf = true ∧
    ({ State.reset with pc := 0xFFF }.withFetchWord 16 0x6055).pc = 0x200 := by decide

/-- An empty stack, one free entry, a full stack. -/
theorem witness_CallPushesAndJumps :
    State.reset.sp.val = (0 : Fin 16).val ∧ { State.reset with sp := 15 }.sp.val = (15 : Fin 16).val ∧
    { State.reset with sp := 16 }.sp.val = 16 := by decide

/-- One entry, a full stack, an empty stack. -/
theorem witness_ReturnPopsThePc :
    { State.reset with sp := 1 }.sp.val = (0 : Fin 16).val + 1 ∧
    { State.reset with sp := 16 }.sp.val = (15 : Fin 16).val + 1 ∧ State.reset.sp.val = 0 := by decide

/-- The last free entry; and a subroutine that has itself called and returned, leaving a stale entry above. -/
theorem witness_ReturnUndoesCall :
    let s : State := { State.reset with sp := 15 }
    let t : State := { State.reset with sp := 16, stk := s.stk.set 15 s.pc, pc := 0xABC }
    let s' : State := State.reset
    let t' : State := { State.reset with sp := 1, stk := s'.stk.set 0 s'.pc, pc := 0xABC }
    let b' : State := { t' with stk := t'.stk.set 1 7 }
    (s.sp.val = (15 : Fin 16).val ∧ exec (.call 0xABC) s = .next t ∧ { t with dt := 9 }.stk[15] = t.stk[15] ∧
      { t with dt := 9 }.sp = t.sp) ∧
    (s'.sp.val = (0 : Fin 16).val ∧ exec (.call 0xABC) s' = .next t' ∧ b'.stk[0] = t'.stk[0] ∧ b'.sp = t'.sp ∧
      b'.stk ≠ t'.stk) :=
  ⟨⟨rfl, rfl, rfl, rfl⟩, ⟨rfl, rfl, by decide, rfl, by decide⟩⟩

/-- Equal and unequal operands. -/
theorem witness_SkipsCompareForEquality :
    (start 0 [(1, 3), (2, 3)]).reg 1 = 3 ∧ (start 0 [(1, 3), (2, 3)]).reg 1 = (start 0 [(1, 3), (2, 3)]).reg 2 ∧
    (start 0 [(1, 3), (2, 4)]).reg 1 ≠ 4 ∧ (start 0 [(1, 3), (2, 4)]).reg 1 ≠ (start 0 [(1, 3), (2, 4)]).reg 2 := by
  decide

/-- Key numbers 15 and 16; key 15 down and up. -/
theorem witness_KeySkipsTestOneKey :
    ((start 0 [(1, 15)]).reg 1).toNat ≤ 15 ∧ 15 < ((start 0 [(1, 16)]).reg 1).toNat ∧
    (0x8000 : Word).toNat / 2 ^ ((start 0 [(1, 15)]).reg 1).toNat % 2 = 1 ∧
    (0x7FFF : Word).toNat / 2 ^ ((start 0 [(1, 15)]).reg 1).toNat % 2 = 0 := by decide

/-- A sum of 256 carries, a sum of 255 does not; the destination may be `VF` or not. -/
theorem witness_AddCarrySumsAndCarries :
    let s := start 0 [(0, 0x80), (1, 0x80), (2, 0x7F)]
    255 < (s.reg 0).toNat + (s.reg 1).toNat ∧ ¬ 255 < (s.reg 0).toNat + (s.reg 2).toNat ∧ (0 : Reg) ≠ 15 := by decide

/-- Equal operands do not borrow, a larger subtrahend does. -/
theorem witness_SubtractionsAndBorrow :
    let s := start 0 [(0, 5), (1, 5), (2, 6)]
    (s.reg 1).toNat ≤ (s.reg 0).toNat ∧ ¬ (s.reg 2).toNat ≤ (s.reg 0).toNat := by decide

/-- Both values of the bit shifted out, on either side. -/
theorem witness_ShiftsMoveOneBitOut :
    let s := start 0 [(0, 0x81), (1, 0x7E)]
    (s.reg 0).toNat % 2 = 1 ∧ ¬ (s.reg 1).toNat % 2 = 1 ∧ 128 ≤ (s.reg 0).toNat ∧ ¬ 128 ≤ (s.reg 1).toNat := by
  decide

/-- The last `I` with room for three bytes, and the next. -/
theorem witness_BcdStoresThreeDigits :
    let s : State := { State.reset with idx := 0xFFD }
    let u : State := { State.reset with idx := 0xFFE }
    (s.mem.wf = true ∧ s.idx.toNat + 2 ≤ 0xFFF) ∧ (u.mem.wf = true ∧ 0xFFF < u.idx.toNat + 2) := by decide

/-- The last `I` with room for sixteen bytes, and the next. -/
theorem witness_StoreRegsStoresTheRun :
    let s : State := { State.reset with idx := 0xFF0 }
    let u : State := { State.reset with idx := 0xFF1 }
    (s.mem.wf = true ∧ s.idx.toNat + (15 : Reg).val ≤ 0xFFF) ∧
    (u.mem.wf = true ∧ 0xFFF < u.idx.toNat + (15 : Reg).val) := by decide

theorem witness_LoadRegsLoadsTheRun :
    { State.reset with idx := 0xFFF }.idx.toNat + (0 : Reg).val ≤ 0xFFF ∧
    0xFFF < { State.reset with idx := 0xFFF }.idx.toNat + (1 : Reg).val := by decide

theorem witness_StoreThenLoadRestoresTheRun :
    let s : State := { State.reset with idx := 0xFF0 }
    s.mem.wf = true ∧ s.idx.toNat + (15 : Reg).val ≤ 0xFFF := by decide

/-- The store's last bytes are the last two of memory and `PC` is there; it reaches the second byte of the next
word only (`I` one above `PC`), its first byte only (`I + X` at `PC`), or neither. -/
theorem witness_FetchSeesTheLastStore :
    let s : State := { State.reset with idx := 0xFFE, pc := 0xFFE }
    let u : State := { State.reset with idx := 0xFFD, pc := 0xFFC }
    (s.mem.wf = true ∧ s.pc.toNat ≤ 0xFFE ∧ s.idx.toNat + (1 : Reg).val ≤ 0xFFF ∧
      s.idx.toNat + 0 = s.pc.toNat ∧ s.idx.toNat + 1 = s.pc.toNat + 1) ∧
    (u.idx.toNat + 2 ≤ 0xFFF ∧ u.pc.toNat < u.idx.toNat ∧ u.idx.toNat + 0 = u.pc.toNat + 1) ∧
    (s.idx.toNat + (0 : Reg).val ≤ 0xFFF ∧ s.idx.toNat + 0 = s.pc.toNat ∧
      s.idx.toNat + ((0 : Reg).val + 1) ≤ s.pc.toNat + 1) ∧
    (State.reset.idx.toNat + 3 ≤ State.reset.pc.toNat) := by decide

/-- No row with `I` far outside, fifteen rows that just fit, fifteen that do not. -/
theorem witness_DrawSpriteXorsTheSprite :
    ((0 : Fin 16).val = 0 ∨ { State.reset with idx := 0xFFFF }.idx.toNat + (0 : Fin 16).val - 1 ≤ 0xFFF) ∧
    ((15 : Fin 16).val = 0 ∨ { State.reset with idx := 0xFF1 }.idx.toNat + (15 : Fin 16).val - 1 ≤ 0xFFF) ∧
    (0 < (15 : Fin 16).val ∧ 0xFFF < { State.reset with idx := 0xFF2 }.idx.toNat + (15 : Fin 16).val - 1) := by decide

/-- A state in which a sprite of one lit bit lies on pixel (0, 0), with that pixel lit, and one with it off. -/
def oneBit (d : Display) : State := { State.reset with idx := 0x300, mem := [(0x300, 0x80)], disp := d }

theorem witness_DrawSprite_pixels :
    (SpriteOn (oneBit 1) 0 0 1 0 0 ∧ pixelOn (oneBit 1).disp 0 0 = true) ∧
    (SpriteOn (oneBit 0) 0 0 1 0 0 ∧ pixelOn (oneBit 0).disp 0 0 = false) :=
  ⟨⟨⟨0, by decide, 0, by decide, by decide, by decide, by decide⟩, by decide +kernel⟩,
    ⟨⟨0, by decide, 0, by decide, by decide, by decide, by decide⟩, by decide +kernel⟩⟩

theorem witness_DrawingTwiceRestoresTheDisplay :
    ∃ t, exec (.drawSprite 0 0 1) (oneBit 0) = .next t ∧ t.reg 0 = (oneBit 0).reg 0 ∧
      ((1 : Fin 16).val = 0 ∨ (oneBit 0).idx.toNat + (1 : Fin 16).val - 1 ≤ 0xFFF) :=
  ⟨_, rfl, by decide +kernel, by decide⟩

/-- An instruction outside every list of the statement but that of `PC`. -/
theorem witness_InstructionsWriteOnlyWhatIsListed :
    ∃ t, exec (.jump 0x300) State.reset = .next t ∧ writesV (.jump 0x300) = false ∧ canFault (.jump 0x300) = false :=
  ⟨_, rfl, rfl, rfl⟩

/-- Each instruction that can fault, on both sides of its boundary. -/
theorem witness_FaultsArePreciseAndExactlyThoseListed :
    let s : State := { start 0 [(0, 15), (1, 16)] with idx := 0xFF0, sp := 16 }
    let u : State := { s with sp := 15 }
    faultOf s (.call 0) = .stackOverflow ∧ faultOf u (.call 0) = .none ∧
    faultOf State.reset (.ret 0) = .stackUnderflow ∧ faultOf s (.ret 0) = .none ∧
    faultOf s (.storeRegs 15) = .none ∧ faultOf { s with idx := 0xFF1 } (.storeRegs 15) = .memoryOutOfRange ∧
    faultOf s (.skipKeyPressed 0) = .none ∧ faultOf s (.skipKeyPressed 1) = .keyIndexOutOfRange := by decide

theorem witness_OnlySixInstructionsWriteTheFlag :
    (∃ t, exec (.shiftLeft 15 0) State.reset = .next t ∧ writesFlag (.shiftLeft 15 0) = true ∧
      faultOf State.reset (.shiftLeft 15 0) = .none) ∧
    (∃ t, exec (.or 1 2) State.reset = .next t ∧ writesFlag (.or 1 2) = false ∧ namesDest 15 (.or 1 2) = false) ∧
    (3 : Reg) ≠ 15 ∧ namesDest 3 (.loadRegs 2) = false :=
  ⟨⟨_, rfl, rfl, rfl⟩, ⟨_, rfl, rfl, by decide⟩, by decide, by decide⟩

theorem witness_NoInstructionReadsIrOrSt : ∃ t, exec (.setSound 1) State.reset = .next t := ⟨_, rfl⟩

/-- Two different states that agree below `SP`. -/
theorem witness_StaleStackEntriesAreUnobservable :
    let s : State := { State.reset with sp := 1 }
    let t : State := { s with stk := s.stk.set 1 7 }
    StackAgree s t ∧ s.stk ≠ t.stk :=
  ⟨⟨rfl, by decide⟩, by decide⟩

/-- Running with `ST` above 0 and at 0; paused. -/
theorem witness_TimerTickTicksBothTimers :
    let s : State := { State.reset with st := 1, pending := [.timerTick] }
    (s.pending = .timerTick :: [] ∧ s.halted = false ∧ s.paused = false ∧ s.st ≠ 0) ∧
    { s with st := 0 }.st = 0 ∧ { s with paused := true }.paused = true := by decide

theorem witness_TicksCountDownAndPulse :
    let s : State := { State.reset with st := 2, pending := List.replicate 3 .timerTick }
    s.pending = List.replicate 3 .timerTick ∧ s.halted = false ∧ s.paused = false := by decide

/-- No wait; a wait and no key down; a wait and two keys down at once. -/
theorem witness_PadWriteLatchesAndCompletes :
    let s : State := { State.reset with pending := [.padWrite 0x48] }
    let w : State := { s with await := true }
    (s.pending = .padWrite 0x48 :: [] ∧ s.halted = false ∧ s.await = false) ∧
    ({ w with keys := 0x48 }.await = true ∧
      ∀ k, k < 16 → (0x48 : Word).getLsbD k = true → { w with keys := 0x48 }.keys.getLsbD k = true) ∧
    (w.await = true ∧ ∃ k, k < 16 ∧ (0x48 : Word).getLsbD k = true ∧ w.keys.getLsbD k = false) :=
  ⟨by decide, ⟨rfl, fun _ _ h => h⟩, rfl, 3, by decide⟩

/-- Two keys at once: both are offered. -/
theorem witness_KeyWaitMayReportAnyNewKey :
    (0x48 : Word) ≠ 0 ∧ (0x48 : Word).getLsbD (3 : Key).val = true ∧ (0x48 : Word).getLsbD (6 : Key).val = true := by
  decide

theorem witness_HostHaltAndPauseToggle :
    { State.reset with pending := [.hostHalt] }.pending = .hostHalt :: [] ∧
    { State.reset with pending := [.hostPauseToggle] }.pending = .hostPauseToggle :: [] ∧
    { State.reset with pending := [.hostPauseToggle] }.halted = false := by decide

/-- The longest image that fits. -/
theorem witness_LoadResetsEverything :
    let img : List Byte := List.replicate 3584 0xAB
    { State.reset with pending := [.load img] }.pending = .load img :: [] ∧ img.length ≤ 3584 :=
  ⟨rfl, by simp only [List.length_replicate]; decide⟩

/-- One byte more. -/
theorem witness_OversizedLoadChangesNothing :
    let img : List Byte := List.replicate 3585 0xAB
    { State.reset with pending := [.load img] }.pending = .load img :: [] ∧ 3584 < img.length :=
  ⟨rfl, by simp only [List.length_replicate]; decide⟩

/-- A halted machine with an event that leaves it a next state, and with each event that stops it. -/
theorem witness_HaltedMachineIsFrozenUntilLoad :
    let s : State := { State.reset with halted := true, pending := [.hostHalt] }
    s.halted = true ∧ (∃ t, step s = .next t) ∧
    { s with pending := [.step] }.pending = .step :: [] ∧
    { s with pending := [.padWrite 1] }.pending = .padWrite 1 :: [] :=
  ⟨rfl, ⟨_, rfl⟩, rfl, rfl⟩

theorem witness_NoOutsideEventRedirectsTheProgram :
    let s : State := { State.reset with pending := [.padWrite 1] }
    s.pending = .padWrite 1 :: [] ∧ (∃ t, step s = .next t) ∧ Event.padWrite 1 ≠ .step ∧
      ∀ img, Event.padWrite 1 ≠ .load img :=
  ⟨rfl, ⟨_, rfl⟩, by decide, fun _ h => by cases h⟩

/-- A step in which `DT` rises, and one in which `ST` does. -/
theorem witness_TimersRiseOnlyBySetDelayAndSetSound :
    got (start 0xF115 [(1, 5)]) (fun t => decide ((start 0xF115 [(1, 5)]).dt.toNat < t.dt.toNat)) = some true ∧
    got (start 0xF118 [(1, 5)]) (fun t => decide ((start 0xF118 [(1, 5)]).st.toNat < t.st.toNat)) = some true := by
  decide

/-- A state with a full stack of the highest return address and the highest `PC` meets the invariant and steps. -/
theorem witness_EveryStepKeepsTheInvariant :
    let s : State := { State.reset with sp := 16, stk := Vector.replicate 16 0x1000, pc := 0x10FE }
    Inv s ∧ ∃ t, step s = .next t :=
  ⟨⟨by decide, by decide, by decide, by decide⟩, ⟨_, rfl⟩⟩

/-- `Jump 0x200` at 0x200: meets the hypotheses of SelfJumpChangesOnlyIr and of SelfJumpNeverDies. -/
theorem witness_SelfJump :
    let s := start 0x1200 []
    AtSelfJump s ∧ s.halted = false ∧ s.paused = false ∧ s.await = false ∧ s.pending = [] ∧ s.fault = .none :=
  ⟨⟨0x200, by decide, by decide⟩, by decide⟩

end Sys2Proof.Tests
end

section
/-! SUPPORT. What an instruction can do, said once: it raises its one fault, or it makes its writes, which `effect`
lists. Then the frame of those writes, one lemma per element of the state (10_state.md R36). -/

namespace Sys2Proof.Machine

/-! ## Every instruction raises its fault or makes its writes -/

/-- The state after an instruction that raises no fault: the model's named updates, with the branch on the fault
condition left out. `exec_eq` ties it to `exec`. -/
def effect (i : Instr) (s : State) : State :=
  match i with
  | .clear _ => s.setDisp 0
  | .ret _ => s.popPc
  | .jump nnn => s.setPc (zextAddr nnn)
  | .call nnn => (s.push s.pc).setPc (zextAddr nnn)
  | .skipEqImm x nn => s.skipIf (s.reg x == nn)
  | .skipNeqImm x nn => s.skipIf (s.reg x != nn)
  | .skipEqReg x y _ => s.skipIf (s.reg x == s.reg y)
  | .loadImm x nn => s.setReg x nn
  | .addImm x nn => s.setReg x (s.reg x + nn)
  | .move x y => s.setReg x (s.reg y)
  | .or x y => s.setReg x (s.reg x ||| s.reg y)
  | .and x y => s.setReg x (s.reg x &&& s.reg y)
  | .xor x y => s.setReg x (s.reg x ^^^ s.reg y)
  | .addCarry x y => s.setRegFlag x (s.reg x + s.reg y) (carryOut (s.reg x) (s.reg y))
  | .subBorrow x y => s.setRegFlag x (s.reg x - s.reg y) (noBorrow (s.reg x) (s.reg y))
  | .shiftRight x _ => s.setRegFlag x (s.reg x >>> 1) (outLow (s.reg x))
  | .subBorrowRev x y => s.setRegFlag x (s.reg y - s.reg x) (noBorrow (s.reg y) (s.reg x))
  | .shiftLeft x _ => s.setRegFlag x (s.reg x <<< 1) (outHigh (s.reg x))
  | .skipNeqReg x y _ => s.skipIf (s.reg x != s.reg y)
  | .loadIndex nnn => s.setI (zextAddr nnn)
  | .jumpPlusV0 nnn => s.setPc (zextAddr nnn + zextByte (s.reg 0))
  | .random x nn => (s.setReg x (nn &&& Config.rnd s.rndDraws)).drewRnd
  | .drawSprite x y n =>
    (s.setDisp (drawnSprite x y n s).disp).setReg regF (flagByte (drawnSprite x y n s).coll)
  | .skipKeyPressed x => s.skipIf (s.keys.getLsbD (s.reg x).toNat)
  | .skipKeyNotPressed x => s.skipIf (!s.keys.getLsbD (s.reg x).toNat)
  | .readDelay x => s.setReg x s.dt
  | .waitKey x => s.beginWait x
  | .setDelay x => s.setDt (s.reg x)
  | .setSound x => s.setSt (s.reg x)
  | .addIndex x => s.setI (s.idx + zextByte (s.reg x))
  | .fontAddr x => s.setI (zextByte (s.reg x) * 5)
  | .bcd x => s.setMem (s.mem.writeBytes s.base (bcdDigits (s.reg x)))
  | .storeRegs x => (s.setMem (s.mem.writeBytes s.base (s.run x))).setI (s.idx + zextCount (runLength x))
  | .loadRegs x => { s with v := loadedRun x s }.setI (s.idx + zextCount (runLength x))

/-- The range check of the `n` bytes at `I`, in the words of the fault conditions (60_exceptions.md R203). -/
theorem rangeFaults_base (s : State) (n : Nat) :
    rangeFaults s.base n = decide (0 < n ∧ 0xFFF < s.idx.toNat + n - 1) := by
  rw [Bool.eq_iff_iff, rangeFaults_iff, decide_eq_true_iff, State.base]
  omega

theorem rangeFaults_base_succ (s : State) (n : Nat) :
    rangeFaults s.base (n + 1) = decide (0xFFF < s.idx.toNat + n) := by
  simp [rangeFaults_base]

/-- Everything an instruction can do (60_exceptions.md R207, R209). -/
theorem exec_eq (i : Instr) (s : State) :
    exec i s = .next (if faultOf s i = .none then effect i s else s.raised (faultOf s i)) := by
  cases i with
  | ret ign =>
    by_cases h : s.sp.val = 0 <;> simp [exec, execRet, raise, faultOf, effect, Fin.ext_iff, h]
  | call nnn =>
    by_cases h : s.sp.val = 16 <;> simp [exec, execCall, raise, faultOf, effect, Fin.ext_iff, h]
  | drawSprite x y n =>
    simp only [exec, execDrawSprite, raise, faultOf, effect, rangeFaults_base, decide_eq_true_eq]
    by_cases h : 0 < n.val ∧ 0xFFF < s.idx.toNat + n.val - 1
    · simp only [if_pos h, reduceCtorEq, if_false]
    · simp only [if_neg h, if_true]
  | skipKeyPressed x =>
    by_cases h : 15 < (s.reg x).toNat <;> simp [exec, execSkipKeyPressed, raise, faultOf, effect, keyDown, h]
  | skipKeyNotPressed x =>
    by_cases h : 15 < (s.reg x).toNat <;> simp [exec, execSkipKeyNotPressed, raise, faultOf, effect, keyDown, h]
  | bcd x =>
    by_cases h : 0xFFF < s.idx.toNat + 2 <;>
      simp [exec, execBcd, raise, faultOf, effect, rangeFaults_base_succ, h]
  | storeRegs x =>
    by_cases h : 0xFFF < s.idx.toNat + x.val <;>
      simp [exec, execStoreRegs, raise, faultOf, effect, runLength, rangeFaults_base_succ, h]
  | loadRegs x =>
    by_cases h : 0xFFF < s.idx.toNat + x.val <;>
      simp [exec, execLoadRegs, raise, faultOf, effect, runLength, rangeFaults_base_succ, h]
  | _ => rfl

/-- An instruction that answers a next state made its writes, or raised its fault and wrote nothing else. -/
theorem exec_cases {i : Instr} {s t : State} (h : exec i s = .next t) :
    (faultOf s i = .none ∧ t = effect i s) ∨ (faultOf s i ≠ .none ∧ t = s.raised (faultOf s i)) := by
  rw [exec_eq] at h
  injection h with h
  subst h
  by_cases hf : faultOf s i = .none
  · exact .inl ⟨hf, if_pos hf⟩
  · exact .inr ⟨hf, if_neg hf⟩

theorem canFault_of_faultOf {i : Instr} {s : State} (h : faultOf s i ≠ .none) : canFault i = true := by
  by_contra hc
  exact h (by cases i <;> simp_all [canFault, faultOf])

/-! ## Who writes what -/

section Frame
variable {i : Instr} (s : State)

theorem effect_v (h : writesV i = false) : (effect i s).v = s.v := by
  cases i <;> simp [writesV, effect] at h ⊢

theorem effect_idx (h : writesI i = false) : (effect i s).idx = s.idx := by
  cases i <;> simp [writesI, effect] at h ⊢

theorem effect_pc (h : writesPc i = false) : (effect i s).pc = s.pc := by
  cases i <;> simp [writesPc, effect] at h ⊢

theorem effect_stk (h : writesStack i = false) : (effect i s).stk = s.stk := by
  cases i <;> simp [writesStack, effect] at h ⊢

theorem effect_sp (h : writesStack i = false) : (effect i s).sp = s.sp := by
  cases i <;> simp [writesStack, effect] at h ⊢

theorem effect_disp (h : writesDisp i = false) : (effect i s).disp = s.disp := by
  cases i <;> simp [writesDisp, effect] at h ⊢

theorem effect_mem (h : writesMem i = false) : (effect i s).mem = s.mem := by
  cases i <;> simp [writesMem, effect] at h ⊢

theorem effect_dt (h : writesDt i = false) : (effect i s).dt = s.dt := by
  cases i <;> simp [writesDt, effect] at h ⊢

theorem effect_st (h : writesSt i = false) : (effect i s).st = s.st := by
  cases i <;> simp [writesSt, effect] at h ⊢

theorem effect_await (h : writesAwait i = false) : (effect i s).await = s.await := by
  cases i <;> simp [writesAwait, effect] at h ⊢

theorem effect_waitX (h : writesAwait i = false) : (effect i s).waitX = s.waitX := by
  cases i <;> simp [writesAwait, effect] at h ⊢

theorem effect_rndDraws (h : takesRnd i = false) : (effect i s).rndDraws = s.rndDraws := by
  cases i <;> simp [takesRnd, effect] at h ⊢

variable (i)

@[simp] theorem effect_halted : (effect i s).halted = s.halted := by cases i <;> simp [effect]
@[simp] theorem effect_fault : (effect i s).fault = s.fault := by cases i <;> simp [effect]
@[simp] theorem effect_keys : (effect i s).keys = s.keys := by cases i <;> simp [effect]
@[simp] theorem effect_paused : (effect i s).paused = s.paused := by cases i <;> simp [effect]
@[simp] theorem effect_ir : (effect i s).ir = s.ir := by cases i <;> simp [effect]
@[simp] theorem effect_pending : (effect i s).pending = s.pending := by cases i <;> simp [effect]
@[simp] theorem effect_pickDraws : (effect i s).pickDraws = s.pickDraws := by cases i <;> simp [effect]
@[simp] theorem effect_outs : (effect i s).outs = s.outs := by cases i <;> simp [effect]

end Frame

end Sys2Proof.Machine
end

section
/-! SUPPORT. The invariant through a fault, a fetch, an instruction and each event (10_state.md R23). -/

namespace Sys2Proof.Machine

/-! ## Which event a step performs -/

/-- Everything a step can perform: an instruction slot, or a pending event of another kind. -/
theorem step_cases {s t : State} (h : step s = .next t) :
    (∃ u, SlotNext s u ∧ performStep u = .next t) ∨
    ∃ e rest, s.pending = e :: rest ∧ e ≠ .step ∧ perform e { s with pending := rest } = .next t := by
  cases hp : s.pending with
  | nil => exact .inl ⟨s, .inl ⟨hp, rfl⟩, step_nil hp ▸ h⟩
  | cons e rest =>
    rw [step_cons hp] at h
    by_cases he : e = .step
    · subst he
      exact .inl ⟨_, .inr ⟨rest, hp, rfl⟩, h⟩
    · exact .inr ⟨e, rest, rfl, he, h⟩

/-- An event that is not enabled in a halted machine answers a next state only when the machine is not halted. -/
theorem next_of_unless_halted {s t : State} {c : Fault} {r : Result}
    (h : (if s.halted then .fault c else r) = .next t) : s.halted = false ∧ r = .next t := by
  cases hh : s.halted with
  | true =>
    rw [hh] at h
    cases h
  | false =>
    rw [hh] at h
    exact ⟨rfl, h⟩

theorem performTimerTick_cases {s t : State} (h : performTimerTick s = .next t) :
    s.halted = false ∧ ((s.paused = true ∧ t = s) ∨ (s.paused = false ∧ t = s.ticked)) := by
  obtain ⟨hh, h⟩ := next_of_unless_halted h
  refine ⟨hh, ?_⟩
  cases hp : s.paused with
  | true =>
    rw [hp] at h
    cases h
    exact .inl ⟨rfl, rfl⟩
  | false =>
    rw [hp] at h
    cases h
    exact .inr ⟨rfl, rfl⟩

theorem performPadWrite_cases {s t : State} {m : Word} (h : performPadWrite m s = .next t) :
    s.halted = false ∧ t = s.padWritten m := by
  obtain ⟨hh, h⟩ := next_of_unless_halted h
  cases h
  exact ⟨hh, rfl⟩

theorem performHostPauseToggle_cases {s t : State} (h : performHostPauseToggle s = .next t) :
    s.halted = false ∧ t = { s with paused := !s.paused } := by
  obtain ⟨hh, h⟩ := next_of_unless_halted h
  cases h
  exact ⟨hh, rfl⟩

theorem performLoad_of_fits (s : State) {img : List Byte} (hl : img.length ≤ 3584) :
    performLoad img s = .next (s.loaded img) := by
  simp [performLoad, imageFits, hl]

theorem performLoad_of_too_large (s : State) {img : List Byte} (hl : 3584 < img.length) :
    performLoad img s = .next { s with outs := .imageTooLarge :: s.outs } := by
  simp [performLoad, imageFits, hl]

theorem performLoad_cases {s t : State} {img : List Byte} (h : performLoad img s = .next t) :
    (img.length ≤ 3584 ∧ t = s.loaded img) ∨
    (3584 < img.length ∧ t = { s with outs := .imageTooLarge :: s.outs }) := by
  obtain hl | hl := le_or_gt img.length 3584
  · rw [performLoad_of_fits s hl] at h
    cases h
    exact .inl ⟨hl, rfl⟩
  · rw [performLoad_of_too_large s hl] at h
    cases h
    exact .inr ⟨hl, rfl⟩

/-- A PadWrite writes the latch and what the completion of a wait writes, and nothing else (60_exceptions.md R215). -/
theorem State.padWritten_frame (s : State) (m : Word) :
    s.padWritten m = { s with
      v := (s.padWritten m).v, keys := m, await := (s.padWritten m).await,
      pickDraws := (s.padWritten m).pickDraws } := by
  unfold State.padWritten completeWait
  split <;> rfl

/-! ## The invariant -/

/-- The invariant speaks of memory, `FAULT`, `HALTED`, `PC` and the stack only. -/
theorem Inv.of_frame {s t : State} (h : Inv s) (hm : t.mem = s.mem) (hf : t.fault = s.fault)
    (hh : s.halted = true → t.halted = true) (hp : t.pc = s.pc) (hk : t.stk = s.stk) : Inv t where
  memCanonical := hm ▸ h.memCanonical
  faultHalts hne := hh (h.faultHalts (hf ▸ hne))
  pcBound := hp ▸ h.pcBound
  stackBound := hk ▸ h.stackBound

theorem Inv.raised {s : State} (h : Inv s) (c : FaultCode) : Inv (s.raised c) :=
  { h with faultHalts := fun _ => rfl }

theorem State.fetched_pc_le (s : State) (w : Word) (hpc : s.pc.toNat ≤ 0xFFE) :
    (s.fetched w).pc.toNat ≤ 0x1000 := by
  rw [show (s.fetched w).pc = s.pc + 2 from rfl, pc_add_two (by omega)]
  omega

theorem Inv.fetched {s : State} (h : Inv s) (w : Word) (hpc : s.pc.toNat ≤ 0xFFE) : Inv (s.fetched w) :=
  { h with pcBound := (s.fetched_pc_le w hpc).trans (by decide) }

theorem zextAddr_toNat (nnn : Addr) : (zextAddr nnn).toNat = nnn.toNat := by
  simp [zextAddr]; omega

theorem zextByte_toNat (b : Byte) : (zextByte b).toNat = b.toNat := by
  simp [zextByte]; omega

/-- A sum of an address and a byte, as JumpPlusV0 forms it, does not wrap (43_family_9_to_C.md R142). -/
theorem zextAddr_add_zextByte_toNat (nnn : Addr) (b : Byte) :
    (zextAddr nnn + zextByte b).toNat = nnn.toNat + b.toNat := by
  rw [BitVec.toNat_add, zextAddr_toNat, zextByte_toNat]
  omega

theorem State.skipIf_pc_le {s : State} (c : Bool) (hpc : s.pc.toNat ≤ 0x1000) : (s.skipIf c).pc.toNat ≤ 0x10FE := by
  cases c with
  | false => exact hpc.trans (by decide)
  | true =>
    rw [State.skipIf_pc, if_pos rfl, pc_add_two (by omega)]
    omega

/-- The stores of BCD and StoreRegs stay inside memory when they raise no fault, so memory stays canonical. -/
theorem effect_mem_wf {i : Instr} {s : State} (h : s.mem.wf = true) (hf : faultOf s i = .none) :
    (effect i s).mem.wf = true := by
  by_cases hw : writesMem i = false
  · rwa [effect_mem s hw]
  cases i with
  | bcd x =>
    have : s.idx.toNat + 2 ≤ 0xFFF := by simpa [faultOf] using hf
    exact Memory.wf_writeBytes _ h (by simp [State.base]; omega)
  | storeRegs x =>
    have : s.idx.toNat + x.val ≤ 0xFFF := by simpa [faultOf] using hf
    exact Memory.wf_writeBytes _ h (by simp [State.base]; omega)
  | _ => exact absurd rfl hw

/-- `PC` after an instruction is the post-fetch `PC`, at most one skip beyond it, a return address, or an address
with at most a byte added (10_state.md R23). -/
theorem effect_pc_le {i : Instr} {s : State} (h : Inv s) (hpc : s.pc.toNat ≤ 0x1000) :
    (effect i s).pc.toNat ≤ 0x10FE := by
  by_cases hw : writesPc i = false
  · rw [effect_pc s hw]
    exact h.pcBound
  cases i with
  | ret ign => exact (h.stackBound _).trans (by decide)
  | jump nnn | call nnn => exact (zextAddr_toNat nnn).trans_le (by omega)
  | jumpPlusV0 nnn => exact (zextAddr_add_zextByte_toNat nnn (s.reg 0)).trans_le (by omega)
  | skipEqImm | skipNeqImm | skipEqReg | skipNeqReg | skipKeyPressed | skipKeyNotPressed =>
    exact State.skipIf_pc_le _ hpc
  | _ => exact absurd rfl hw

/-- Only Call writes the stack entries, and it pushes the post-fetch `PC` (40_family_0_1_2_flow.md R103). -/
theorem effect_stk_le {i : Instr} {s : State} (h : Inv s) (hpc : s.pc.toNat ≤ 0x1000)
    (hf : faultOf s i = .none) (k : Fin 16) : ((effect i s).stk[k]).toNat ≤ 0x1000 := by
  by_cases hw : writesStack i = false
  · rw [effect_stk s hw]
    exact h.stackBound k
  cases i with
  | ret ign => exact h.stackBound k
  | call nnn =>
    have hsp : s.sp.val ≠ 16 := by simpa [faultOf] using hf
    have hget := State.push_get s.pc (s := s) (k := ⟨s.sp.val, by omega⟩) rfl k
    rw [show (effect (.call nnn) s).stk = (s.push s.pc).stk from rfl, hget]
    split
    · exact hpc
    · exact h.stackBound k
  | _ => exact absurd rfl hw

theorem Inv.exec {i : Instr} {s t : State} (h : Inv s) (hpc : s.pc.toNat ≤ 0x1000) (he : exec i s = .next t) :
    Inv t := by
  obtain ⟨hf, rfl⟩ | ⟨-, rfl⟩ := exec_cases he
  · exact
      { memCanonical := effect_mem_wf h.memCanonical hf
        faultHalts := by simpa using h.faultHalts
        pcBound := effect_pc_le h hpc
        stackBound := effect_stk_le h hpc hf }
  · exact h.raised _

theorem Inv.performStep {s t : State} (h : Inv s) (hs : performStep s = .next t) : Inv t := by
  obtain ⟨-, ⟨-, rfl⟩ | ⟨-, -, rfl⟩ | ⟨-, -, -, rfl⟩ | ⟨-, -, hpc, w, -, hw⟩⟩ := performStep_cases hs
  · exact h
  · exact h
  · exact h.raised _
  · obtain ⟨i, -, he⟩ | ⟨e, -, rfl⟩ := hw
    · exact (h.fetched w hpc).exec (s.fetched_pc_le w hpc) he
    · exact h.fetched w hpc

/-- The state after a Load that fits meets the invariant, whatever the state before it. -/
theorem inv_loaded (s : State) {img : List Byte} (hl : img.length ≤ 3584) : Inv (s.loaded img) where
  memCanonical := imageCells_wf img 0x200 0 (by decide) (by omega)
  faultHalts h := absurd rfl h
  pcBound := (by decide : (0x200 : Word).toNat ≤ 0x10FE)
  stackBound k := by simp [State.loaded, State.reset]

theorem Inv.perform {e : Event} {s t : State} (h : Inv s) (hs : perform e s = .next t) : Inv t := by
  cases e with
  | step => exact h.performStep hs
  | timerTick =>
    obtain ⟨-, ⟨-, rfl⟩ | ⟨-, rfl⟩⟩ := performTimerTick_cases hs
    · exact h
    · exact h.of_frame rfl rfl id rfl rfl
  | padWrite m =>
    obtain ⟨-, rfl⟩ := performPadWrite_cases hs
    rw [State.padWritten_frame]
    exact h.of_frame rfl rfl id rfl rfl
  | hostHalt =>
    cases hs
    exact h.of_frame rfl rfl (fun _ => rfl) rfl rfl
  | hostPauseToggle =>
    obtain ⟨-, rfl⟩ := performHostPauseToggle_cases hs
    exact h.of_frame rfl rfl id rfl rfl
  | load img =>
    obtain ⟨hl, rfl⟩ | ⟨-, rfl⟩ := performLoad_cases hs
    · exact inv_loaded s hl
    · exact h.of_frame rfl rfl id rfl rfl

/-- Settles O51: the invariant survives taking an event off the list, and then the event. -/
theorem everyStepKeepsTheInvariant : Obligations.EveryStepKeepsTheInvariant := by
  intro s t h hs
  obtain ⟨u, hu, hstep⟩ | ⟨e, rest, -, -, he⟩ := step_cases hs
  · have hInv : Inv u := by
      rw [hu.frame]
      exact h.of_frame rfl rfl id rfl rfl
    exact hInv.performStep hstep
  · exact (h.of_frame rfl rfl id rfl rfl : Inv { s with pending := rest }).perform he

/-- Settles O50: reset is the state after a Load of the empty image, which is canonical. -/
theorem resetSatisfiesTheInvariant : Obligations.ResetSatisfiesTheInvariant :=
  inv_loaded State.reset (img := []) (by decide)

end Sys2Proof.Machine
end

section
/-! SUPPORT. The state after reset and after a Load (10_state.md R35). -/

namespace Sys2Proof.Machine

theorem Memory.initial_font (j : Fin 80) : Memory.initial j.val = Config.font j := by
  simp [Memory.initial]

theorem Memory.initial_eq_zero {a : Nat} (h : 80 ≤ a) : Memory.initial a = 0 := by
  simp [Memory.initial, Nat.not_lt.mpr h]

theorem State.reset_reg (r : Reg) : State.reset.reg r = 0 := by
  simp [State.reset, State.reg]

theorem State.reset_stk (k : Fin 16) : State.reset.stk[k] = 0 := by
  simp [State.reset]

theorem State.reset_pixelOn (x y : Nat) : pixelOn State.reset.disp x y = false :=
  BitVec.getLsbD_zero

/-- Settles O49: memory lists nothing after reset, so each byte reads as the font or as 0. -/
theorem resetIsTheLoadedState : Obligations.ResetIsTheLoadedState :=
  ⟨rfl, rfl, rfl, State.reset_reg, State.reset_stk, rfl, rfl, State.reset_pixelOn, rfl, rfl, rfl, rfl, rfl,
    Memory.initial_font, fun _ h _ => Memory.initial_eq_zero h⟩

theorem step_load {s : State} {img : List Byte} {rest : List Event} (hp : s.pending = .load img :: rest)
    (hl : img.length ≤ 3584) : step s = .next ({ s with pending := rest }.loaded img) := by
  rw [step_cons hp]
  exact performLoad_of_fits _ hl

section LoadedMemory
variable (s : State) {img : List Byte} (hl : img.length ≤ 3584)
include hl

theorem State.loaded_read_image (j : Nat) (h : j < img.length) : (s.loaded img).mem.read (0x200 + j) = img[j] :=
  imageCells_read_inside img 0x200 j (by omega) h

theorem State.loaded_read_outside {a : Nat} (h : a < 0x200 ∨ 0x200 + img.length ≤ a) :
    (s.loaded img).mem.read a = Memory.initial a :=
  imageCells_read_outside img 0x200 a (by omega) h

theorem State.loaded_read_font (j : Fin 80) : (s.loaded img).mem.read j.val = Config.font j := by
  rw [s.loaded_read_outside hl (.inl (by omega)), Memory.initial_font]

theorem State.loaded_read_below {a : Nat} (h : 80 ≤ a) (ha : a < 0x200) : (s.loaded img).mem.read a = 0 := by
  rw [s.loaded_read_outside hl (.inl ha), Memory.initial_eq_zero h]

theorem State.loaded_read_above {a : Nat} (h : 0x200 + img.length ≤ a) : (s.loaded img).mem.read a = 0 := by
  rw [s.loaded_read_outside hl (.inr h), Memory.initial_eq_zero (by omega)]

end LoadedMemory

/-- Settles O44: a Load that fits leaves `State.loaded`, whose registers, timers and latches are those of reset. -/
theorem loadResetsEverything : Obligations.LoadResetsEverything := by
  intro s img rest hp hl
  refine ⟨_, step_load hp hl, State.reset_reg, rfl, rfl, rfl, State.reset_stk, rfl, rfl, State.reset_pixelOn,
    rfl, rfl, rfl, rfl, rfl, rfl, rfl, ?_, ?_, ?_, ?_, ?_, rfl, rfl, rfl, rfl⟩
  · exact State.loaded_read_font _ hl
  · exact fun _ => State.loaded_read_below _ hl
  · exact State.loaded_read_image _ hl
  · exact fun _ h _ => State.loaded_read_above _ hl h
  · exact (inv_loaded _ hl).memCanonical

end Sys2Proof.Machine
end

section
/-! SUPPORT. What the handlers write and read, over all instructions (10_state.md R21, R26, R31, R36). -/

namespace Sys2Proof.Machine

/-- Settles O34, by the frame of `effect`; a fault writes `FAULT` and `HALTED` only, and only where one is listed. -/
theorem instructionsWriteOnlyWhatIsListed : Obligations.InstructionsWriteOnlyWhatIsListed := by
  intro i s t h
  obtain ⟨-, rfl⟩ | ⟨hf, rfl⟩ := exec_cases h
  · exact ⟨effect_v s, effect_idx s, effect_pc s, fun h => ⟨effect_stk s h, effect_sp s h⟩, effect_disp s,
      effect_mem s, effect_dt s, effect_st s, fun h => ⟨effect_await s h, effect_waitX s h⟩,
      fun _ => ⟨effect_halted i s, effect_fault i s⟩, effect_rndDraws s, effect_keys i s, effect_paused i s,
      effect_ir i s, effect_pending i s, effect_pickDraws i s, effect_outs i s⟩
  · simp [canFault_of_faultOf hf]

/-! ## The flag register (10_state.md R21) -/

theorem flagByte_eq_zero_or_one (c : Bool) : flagByte c = 0 ∨ flagByte c = 1 := by
  cases c
  · exact .inl rfl
  · exact .inr rfl

/-- Each flag instruction writes `VF` last, from a truth value. -/
theorem effect_reg_flag {i : Instr} (s : State) (h : writesFlag i = true) :
    ∃ c, (effect i s).reg 15 = flagByte c := by
  cases i with
  | addCarry | subBorrow | shiftRight | subBorrowRev | shiftLeft =>
    exact ⟨_, (State.reg_setRegFlag ..).trans (if_pos rfl)⟩
  | drawSprite x y n => exact ⟨_, (State.reg_setReg ..).trans (if_pos rfl)⟩
  | _ => cases h

/-- A run loaded from memory keeps the registers above it (46_family_F_misc.md R178). -/
theorem loadedRun_get_of_lt (s : State) {x r : Reg} (h : x.val < r.val) : (loadedRun x s)[r] = s.reg r := by
  have hx : (s.mem.readBytes s.base (runLength x)).length = x.val + 1 := Memory.readBytes_length ..
  have hr : ¬ (0 ≤ r.val ∧ r.val < 0 + (s.mem.readBytes s.base (runLength x)).length) := by omega
  rw [loadedRun, setRun_get _ _ _ _ (by omega), dif_neg hr, State.reg]

/-- A register that the instruction does not name as a destination keeps its value, `VF` under a flag instruction
apart. -/
theorem effect_reg {i : Instr} {r : Reg} (s : State) (hd : namesDest r i = false)
    (hr : writesFlag i = false ∨ r ≠ 15) : (effect i s).reg r = s.reg r := by
  by_cases hv : writesV i = false
  · rw [State.reg, effect_v s hv, State.reg]
  cases i with
  | loadImm | addImm | move | or | and | xor | random | readDelay =>
    have hx := beq_eq_false_iff_ne.mp hd
    exact (State.reg_setReg ..).trans (if_neg hx)
  | addCarry | subBorrow | shiftRight | subBorrowRev | shiftLeft =>
    have hx := beq_eq_false_iff_ne.mp hd
    have h15 := hr.resolve_left Bool.noConfusion
    rw [effect, State.reg_setRegFlag, if_neg h15, if_neg hx]
  | drawSprite x y n =>
    have h15 := hr.resolve_left Bool.noConfusion
    exact (State.reg_setReg ..).trans (if_neg h15)
  | loadRegs x => exact loadedRun_get_of_lt s (not_le.mp (of_decide_eq_false hd) : x < r)
  | _ => exact absurd rfl hv

/-- Settles O36; a fault writes no register. -/
theorem onlySixInstructionsWriteTheFlag : Obligations.OnlySixInstructionsWriteTheFlag := by
  intro i s t h
  obtain ⟨-, rfl⟩ | ⟨hf, rfl⟩ := exec_cases h
  · refine ⟨fun hw _ => ?_, fun hw hd => effect_reg s hd (.inl hw), fun r hr hd => effect_reg s hd (.inr hr)⟩
    obtain ⟨c, hc⟩ := effect_reg_flag s hw
    exact hc ▸ flagByte_eq_zero_or_one c
  · exact ⟨fun _ hn => absurd hn hf, fun _ _ => rfl, fun _ _ _ => rfl⟩

/-! ## `IR` and `ST` are read by no instruction (10_state.md R26, R31) -/

theorem State.skipIf_eq_setPc (s : State) (c : Bool) : s.skipIf c = s.setPc (if c then s.pc + 2 else s.pc) := by
  cases c <;> rfl

theorem effect_withIrSt (i : Instr) (s : State) (a : Word) (b : Byte) :
    effect i { s with ir := a, st := b } =
      { effect i s with ir := a, st := if writesSt i then (effect i s).st else b } := by
  cases i with
  | skipEqImm | skipNeqImm | skipEqReg | skipNeqReg | skipKeyPressed | skipKeyNotPressed =>
    simp only [effect, State.skipIf_eq_setPc]; rfl
  | _ => rfl

theorem faultOf_withIrSt (i : Instr) (s : State) (a : Word) (b : Byte) :
    faultOf { s with ir := a, st := b } i = faultOf s i := by
  cases i <;> rfl

theorem writesSt_of_canFault {i : Instr} (h : canFault i = true) : writesSt i = false := by
  cases i with
  | setSound x => cases h
  | _ => rfl

/-- Settles O37; the fault condition does not read them either, and no instruction that can fault writes `ST`. -/
theorem noInstructionReadsIrOrSt : Obligations.NoInstructionReadsIrOrSt := by
  intro i s t a b h
  rw [exec_eq, faultOf_withIrSt]
  obtain ⟨hf, rfl⟩ | ⟨hf, rfl⟩ := exec_cases h
  · rw [if_pos hf, effect_withIrSt]
  · rw [if_neg hf, writesSt_of_canFault (canFault_of_faultOf hf)]
    rfl

end Sys2Proof.Machine
end

section
/-! SUPPORT. Stack entries at or above `SP` through an instruction and each event (10_state.md R24). -/

namespace Sys2Proof.Machine

/-! ## Agreement below `SP` -/

theorem StackAgree.refl (s : State) : StackAgree s s := ⟨rfl, fun _ _ => rfl⟩

theorem StackAgree.exists_stk {s t : State} (h : StackAgree s t) :
    ∃ k : Vector Word 16, t = { s with stk := k } ∧ ∀ j : Fin 16, j.val < s.sp.val → k[j] = s.stk[j] :=
  ⟨t.stk, h⟩

/-- An update that neither reads nor writes the stack and `SP` keeps the agreement. -/
theorem StackAgree.map {f : State → State} (hf : ∀ s k, f { s with stk := k } = { f s with stk := k })
    (hstk : ∀ s, (f s).stk = s.stk) (hsp : ∀ s, (f s).sp = s.sp) {s t : State} (h : StackAgree s t) :
    StackAgree (f s) (f t) := by
  obtain ⟨k, rfl, hk⟩ := h.exists_stk
  rw [hf s k]
  exact ⟨rfl, fun j hj => by rw [hstk]; exact hk j (hsp s ▸ hj)⟩

/-- Two answers under one condition agree when they do on each branch. -/
theorem ResultAgree.ite {c : Prop} [Decidable c] {a a' b b' : Result} (ha : c → ResultAgree a a')
    (hb : ¬ c → ResultAgree b b') : ResultAgree (if c then a else b) (if c then a' else b') := by
  split
  · exact ha ‹_›
  · exact hb ‹_›

/-! ## Instructions -/

theorem effect_withStk {i : Instr} (h : writesStack i = false) (s : State) (k : Vector Word 16) :
    effect i { s with stk := k } = { effect i s with stk := k } := by
  cases i with
  | call | ret => cases h
  | skipEqImm | skipNeqImm | skipEqReg | skipNeqReg | skipKeyPressed | skipKeyNotPressed =>
    simp only [effect, State.skipIf_eq_setPc]; rfl
  | _ => rfl

theorem faultOf_withStk (i : Instr) (s : State) (k : Vector Word 16) :
    faultOf { s with stk := k } i = faultOf s i := by
  cases i <;> rfl

/-- Return reads the entry below `SP`, the highest one in use. -/
theorem StackAgree.popPc {s t : State} (h : StackAgree s t) (hsp : s.sp.val ≠ 0) :
    StackAgree s.popPc t.popPc := by
  obtain ⟨k, rfl, hk⟩ := h.exists_stk
  have hdown := spDown_val s.sp
  have hslot := stackSlot_val (p := spDown s.sp) (by omega)
  have htop : k[stackSlot (spDown s.sp)] = s.stk[stackSlot (spDown s.sp)] := hk _ (by omega)
  refine ⟨?_, fun j hj => hk j ?_⟩
  · simp only [State.popPc, htop]
  · rw [State.popPc_sp] at hj
    omega

/-- Call writes the entry at `SP`, the same one with the same value in both states. -/
theorem StackAgree.pushPc {s t : State} (h : StackAgree s t) (hsp : s.sp.val ≠ 16) :
    StackAgree (s.push s.pc) (t.push t.pc) := by
  obtain ⟨k, rfl, hk⟩ := h.exists_stk
  obtain ⟨top, htop⟩ : ∃ j : Fin 16, s.sp.val = j.val := ⟨⟨s.sp.val, by omega⟩, rfl⟩
  refine ⟨rfl, fun j hj => ?_⟩
  rw [State.push_sp, spUp_val (by omega)] at hj
  have hs := State.push_get (s := s) s.pc htop j
  have ht := State.push_get (s := { s with stk := k }) s.pc htop j
  refine ht.trans (Eq.trans ?_ hs.symm)
  by_cases hjt : j = top
  · rw [if_pos hjt, if_pos hjt]
  · rw [if_neg hjt, if_neg hjt]
    have hne : j.val ≠ s.sp.val := fun e => hjt (Fin.ext (e.trans htop))
    exact hk j (by omega)

theorem StackAgree.effect {i : Instr} {s t : State} (h : StackAgree s t) (hf : faultOf s i = .none) :
    StackAgree (effect i s) (effect i t) := by
  by_cases hw : writesStack i = false
  · exact h.map (effect_withStk hw) (effect_stk · hw) (effect_sp · hw)
  cases i with
  | ret ign => exact h.popPc (by simpa [faultOf] using hf)
  | call nnn =>
    have hp := h.pushPc (by simpa [faultOf] using hf)
    exact hp.map (f := (·.setPc (zextAddr nnn))) (fun _ _ => rfl) (fun _ => rfl) (fun _ => rfl)
  | _ => exact absurd rfl hw

theorem StackAgree.raised {s t : State} (h : StackAgree s t) (c : FaultCode) : StackAgree (s.raised c) (t.raised c) :=
  h.map (f := (·.raised c)) (fun _ _ => rfl) (fun _ => rfl) (fun _ => rfl)

theorem StackAgree.exec {s t : State} (h : StackAgree s t) (i : Instr) : ResultAgree (exec i s) (exec i t) := by
  have hft : faultOf t i = faultOf s i := by
    obtain ⟨k, rfl, -⟩ := h.exists_stk
    exact faultOf_withStk i s k
  rw [exec_eq, exec_eq, hft]
  by_cases hf : faultOf s i = .none
  · rw [if_pos hf, if_pos hf]
    exact h.effect hf
  · rw [if_neg hf, if_neg hf]
    exact h.raised _

/-! ## Events -/

theorem StackAgree.fetched {s t : State} (h : StackAgree s t) (w : Word) : StackAgree (s.fetched w) (t.fetched w) :=
  h.map (f := (·.fetched w)) (fun _ _ => rfl) (fun _ => rfl) (fun _ => rfl)

theorem StackAgree.runWord {s t : State} (h : StackAgree s t) (w : Word) :
    ResultAgree (runWord w s) (runWord w t) := by
  unfold Machine.runWord
  cases decodeWord w with
  | ok i => exact (h.fetched w).exec i
  | error e => exact h.fetched w

theorem StackAgree.fetchExecute {s t : State} (h : StackAgree s t) :
    ResultAgree (fetchExecute s) (fetchExecute t) := by
  obtain ⟨k, rfl, -⟩ := h.exists_stk
  refine ResultAgree.ite (fun _ => h) fun _ => ?_
  rw [show fetchWord { s with stk := k } = fetchWord s from rfl]
  cases fetchWord s with
  | none => exact h.raised _
  | some w => exact h.runWord w

theorem StackAgree.performStep {s t : State} (h : StackAgree s t) :
    ResultAgree (performStep s) (performStep t) := by
  obtain ⟨k, rfl, -⟩ := h.exists_stk
  exact ResultAgree.ite (fun _ => rfl) fun _ => ResultAgree.ite (fun _ => h) fun _ => h.fetchExecute

theorem State.padWritten_withStk (s : State) (m : Word) (k : Vector Word 16) :
    { s with stk := k }.padWritten m = { s.padWritten m with stk := k } := by
  unfold State.padWritten completeWait
  cases s.await <;> cases newlyDown s.keys m != 0 <;> rfl

theorem StackAgree.padWritten {s t : State} (h : StackAgree s t) (m : Word) :
    StackAgree (s.padWritten m) (t.padWritten m) :=
  h.map (f := (·.padWritten m)) (State.padWritten_withStk · m) (fun s => by rw [State.padWritten_frame])
    (fun s => by rw [State.padWritten_frame])

theorem StackAgree.perform {s t : State} (h : StackAgree s t) (e : Event) :
    ResultAgree (perform e s) (perform e t) := by
  obtain ⟨k, rfl, -⟩ := h.exists_stk
  cases e with
  | step => exact h.performStep
  | timerTick =>
    have hTicked := h.map (f := State.ticked) (fun _ _ => rfl) (fun _ => rfl) (fun _ => rfl)
    exact ResultAgree.ite (fun _ => rfl) fun _ => ResultAgree.ite (fun _ => h) fun _ => hTicked
  | padWrite m => exact ResultAgree.ite (fun _ => rfl) fun _ => h.padWritten m
  | hostHalt =>
    exact h.map (f := fun u => { u with halted := true }) (fun _ _ => rfl) (fun _ => rfl) (fun _ => rfl)
  | hostPauseToggle =>
    have hToggled := h.map (f := fun u => { u with paused := !u.paused }) (fun _ _ => rfl) (fun _ => rfl)
      (fun _ => rfl)
    exact ResultAgree.ite (fun _ => rfl) fun _ => hToggled
  | load img =>
    have hReported := h.map (f := fun u => { u with outs := .imageTooLarge :: u.outs }) (fun _ _ => rfl)
      (fun _ => rfl) (fun _ => rfl)
    exact ResultAgree.ite (fun _ => StackAgree.refl (s.loaded img)) fun _ => hReported

/-- Settles O38: the two states have the same event next, and each event keeps the agreement. -/
theorem staleStackEntriesAreUnobservable : Obligations.StaleStackEntriesAreUnobservable := by
  intro s t h
  have hpt : t.pending = s.pending := by rw [h.1]
  cases hp : s.pending with
  | nil =>
    rw [step_nil hp, step_nil (hpt.trans hp)]
    exact h.performStep
  | cons e rest =>
    rw [step_cons hp, step_cons (hpt.trans hp)]
    exact (h.map (f := fun u => { u with pending := rest }) (fun _ _ => rfl) (fun _ => rfl) (fun _ => rfl)).perform e

end Sys2Proof.Machine
end

section
/-! SUPPORT. The decoder on an encoded word: it reads back the fields that the format put together (30_encoding.md
R71, R72, R74). -/

namespace Sys2Proof

theorem fieldX_formatXI (f : Nibble) (x : Reg) (nn : Byte) : fieldX (formatXI f (numNibble x) nn) = x := by
  rw [fieldX, nibbleX_formatXI, nibbleNum_numNibble]

theorem fieldX_formatXY (f : Nibble) (x : Reg) (y n : Nibble) : fieldX (formatXY f (numNibble x) y n) = x := by
  rw [fieldX, nibbleX_formatXY, nibbleNum_numNibble]

theorem fieldY_formatXY (f x : Nibble) (y : Reg) (n : Nibble) : fieldY (formatXY f x (numNibble y) n) = y := by
  rw [fieldY, nibbleY_formatXY, nibbleNum_numNibble]

/-- Every field of an instruction, an ignored one included, comes back from its word. The cases are the three
formats, each with the families that dispatch on the top nibble alone and those that look at a low field. -/
theorem decodeWord_encode (i : Instr) : decodeWord (encode i) = .ok i := by
  cases i with
  | jump | call | loadIndex | jumpPlusV0 =>
    simp [encode, decodeWord, fieldF_formatA, fieldNNN_formatA]
  | skipEqImm | skipNeqImm | loadImm | addImm | random =>
    simp [encode, decodeWord, fieldF_formatXI, fieldX_formatXI, fieldNN_formatXI]
  | clear | ret =>
    simp [encode, decodeWord, decodeFamily0, fieldF_formatXI, nibbleX_formatXI, fieldNN_formatXI]
  | skipKeyPressed | skipKeyNotPressed =>
    simp [encode, decodeWord, decodeFamilyE, fieldF_formatXI, fieldX_formatXI, fieldNN_formatXI]
  | readDelay | waitKey | setDelay | setSound | addIndex | fontAddr | bcd | storeRegs | loadRegs =>
    simp [encode, decodeWord, decodeFamilyF, fieldF_formatXI, fieldX_formatXI, fieldNN_formatXI]
  | skipEqReg | skipNeqReg | drawSprite =>
    simp [encode, decodeWord, fieldF_formatXY, fieldX_formatXY, fieldY_formatXY, fieldN_formatXY]
  | move | or | and | xor | addCarry | subBorrow | shiftRight | subBorrowRev | shiftLeft =>
    simp [encode, decodeWord, decodeFamily8, fieldF_formatXY, fieldX_formatXY, fieldY_formatXY, nibbleY_formatXY,
      fieldN_formatXY]

end Sys2Proof
end

section
/-! SUPPORT. The fetch and the bytes stored before it: a word placed at the fetch address (20_memory.md R54), and a
store by an instruction over the next word (20_memory.md R62). -/

namespace Sys2Proof.Machine

/-! ## A word placed where the next step fetches (log 7) -/

/-- The placed word lies where two bytes can be fetched, whatever `PC` was. -/
theorem State.withFetchWord_pc_le (s : State) (nbits w : Nat) : (s.withFetchWord nbits w).pc.toNat ≤ 0xFFE := by
  simp only [State.withFetchWord]
  split
  · decide
  · rename_i h
    rw [Bool.not_eq_true, rangeFaults_false] at h
    omega

theorem State.withFetchWord_pc_of_le {s : State} (nbits w : Nat) (h : s.pc.toNat ≤ 0xFFE) :
    (s.withFetchWord nbits w).pc = s.pc := by
  have hf : rangeFaults s.pc.toNat 2 = false := rangeFaults_false.mpr (by omega)
  simp [State.withFetchWord, hf]

theorem State.withFetchWord_mem (s : State) (w : Word) :
    (s.withFetchWord 16 w.toNat).mem =
      s.mem.writeBytes (s.withFetchWord 16 w.toNat).pc.toNat [firstByte w, secondByte w] := by
  have hw : BitVec.ofNat 16 (w.toNat % 2 ^ 16) = w := by
    rw [Nat.mod_eq_of_lt w.isLt, BitVec.ofNat_toNat, BitVec.setWidth_eq]
  simp only [State.withFetchWord, hw]

theorem State.withFetchWord_read_outside {s : State} (w : Word) (hwf : s.mem.wf = true) {a : Nat}
    (hfirst : a ≠ (s.withFetchWord 16 w.toNat).pc.toNat) (hsecond : a ≠ (s.withFetchWord 16 w.toNat).pc.toNat + 1) :
    (s.withFetchWord 16 w.toNat).mem.read a = s.mem.read a := by
  have hpc := s.withFetchWord_pc_le 16 w.toNat
  rw [State.withFetchWord_mem]
  exact Memory.read_writeBytes_outside _ hwf (by simp; omega) (by simp; omega)

/-- Stored high byte first, fetched high byte first (20_memory.md R54). -/
theorem fetchWord_withFetchWord {s : State} (w : Word) (hwf : s.mem.wf = true) :
    fetchWord (s.withFetchWord 16 w.toNat) = some w := by
  have hpc := s.withFetchWord_pc_le 16 w.toNat
  have hfit : (s.withFetchWord 16 w.toNat).pc.toNat + 2 ≤ 4096 := by omega
  have hfirst := Memory.read_writeBytes_inside (k := 0) [firstByte w, secondByte w] hwf hfit Nat.zero_lt_two
  have hsecond := Memory.read_writeBytes_inside (k := 1) [firstByte w, secondByte w] hwf hfit Nat.one_lt_two
  rw [Nat.add_zero] at hfirst
  rw [fetchWord_of_le hpc, State.withFetchWord_mem, hfirst, hsecond]
  exact congrArg some (wordOfBytes_bytes w)

/-- Settles O10: the machine runs with no event pending, so its step is the slot that fetches the placed word. -/
theorem placedWordIsFetchedAndRun : Obligations.PlacedWordIsFetchedAndRun := by
  intro s i hwf
  refine ⟨?_, rfl, State.withFetchWord_pc_of_le _ _, fun a => State.withFetchWord_read_outside _ hwf⟩
  exact (step_nil rfl).trans
    (performStep_exec rfl rfl rfl (fetchWord_withFetchWord (encode i) hwf) (decodeWord_encode i))

/-! ## A store over the next word -/

theorem exec_of_faultOf_none {i : Instr} {s : State} (h : faultOf s i = .none) : exec i s = .next (effect i s) := by
  rw [exec_eq, if_pos h]

/-- A byte of memory after a run is written over it: the byte of the run that reached it, else the one before. -/
theorem byteAfterStore_writeBytes {m : Memory} {base : Nat} {bs : List Byte} {stored : Nat → Nat}
    (hwf : m.wf = true) (hfit : base + bs.length ≤ 4096)
    (hstored : ∀ (k : Nat) (hk : k < bs.length), bs[k].toNat = stored k) (a : Nat) :
    ByteAfterStore m base bs.length stored a ((m.writeBytes base bs).read a) where
  reached k hk ha := by rw [← ha, Memory.read_writeBytes_inside bs hwf hfit hk, hstored k hk]
  kept ha := Memory.read_writeBytes_outside bs hwf hfit ha

/-- A run written at `I` is seen by the next fetch. -/
theorem fetchSees_of_writeBytes {s t : State} {bs : List Byte} {stored : Nat → Nat} (hwf : s.mem.wf = true)
    (hpc : s.pc.toNat ≤ 0xFFE) (hfit : s.idx.toNat + bs.length ≤ 4096)
    (hstored : ∀ (k : Nat) (hk : k < bs.length), bs[k].toNat = stored k)
    (htpc : t.pc = s.pc) (htmem : t.mem = s.mem.writeBytes s.idx.toNat bs) :
    FetchSees s t bs.length stored := by
  have hbyte := byteAfterStore_writeBytes hwf hfit hstored
  have hfetch := fetchWord_of_le (htpc ▸ hpc : t.pc.toNat ≤ 0xFFE)
  rw [htpc, htmem] at hfetch
  exact ⟨htpc, _, _, hfetch, hbyte _, hbyte _⟩

/-- Byte `k` that StoreRegs stores is `V[k]` (46_family_F_misc.md R177). -/
theorem State.run_get_toNat (s : State) (x : Reg) (k : Nat) (hk : k < (s.run x).length) :
    (s.run x)[k].toNat = (s.reg (Fin.ofNat 16 k)).toNat := by
  have hkx : k ≤ x.val := by simpa [Nat.lt_succ_iff] using hk
  have hreg : (Fin.ofNat 16 k).val = k := Nat.mod_eq_of_lt (by omega)
  have hget := s.run_get x (Fin.ofNat 16 k) (Fin.le_def.mpr (by omega))
  simp only [hreg] at hget
  rw [hget]

/-- Byte `k` that BCD stores is decimal digit `2 - k` (46_family_F_misc.md R176). -/
theorem bcdDigits_get_toNat (b : Byte) (k : Nat) (hk : k < (bcdDigits b).length) :
    (bcdDigits b)[k].toNat = b.toNat / 10 ^ (2 - k) % 10 := by
  have hb := b.isLt
  rw [bcdDigits_length] at hk
  obtain rfl | rfl | rfl : k = 0 ∨ k = 1 ∨ k = 2 := by omega
  all_goals
    simp [bcdDigits]
    omega

/-- Settles O31: both stores are runs of bytes written at `I`, and neither moves `PC`. -/
theorem fetchSeesTheLastStore : Obligations.FetchSeesTheLastStore := by
  intro x s hwf hpc
  refine ⟨fun hfit => ⟨_, exec_of_faultOf_none (by simpa [faultOf] using hfit), ?_⟩,
    fun hfit => ⟨_, exec_of_faultOf_none (by simpa [faultOf] using hfit), ?_⟩⟩
  · rw [← s.run_length x]
    exact fetchSees_of_writeBytes hwf hpc (by simp; omega) (s.run_get_toNat x) rfl rfl
  · rw [← bcdDigits_length (s.reg x)]
    exact fetchSees_of_writeBytes hwf hpc (by simp; omega) (bcdDigits_get_toNat (s.reg x)) rfl rfl

end Sys2Proof.Machine
end

section
/-! SUPPORT. The decoder against the opcode map (30_encoding.md R71 to R77): a decoded word is put together from the
fields of its instruction, the test of a row picks the decoder's branch, and the no-op words are the rest. -/

namespace Sys2Proof

/-- Settles O1: the decoder reads back the fields that each of the three formats put together. -/
theorem decodeInvertsEncode : Obligations.DecodeInvertsEncode := decodeWord_encode

/-! ## A decoded word is the word of its instruction -/

@[simp] theorem numNibble_fieldX (w : Word) : numNibble (fieldX w) = nibbleX w := numNibble_nibbleNum _

@[simp] theorem numNibble_fieldY (w : Word) : numNibble (fieldY w) = nibbleY w := numNibble_nibbleNum _

section Fields
variable {w : Word} {f : Nibble} (hF : fieldF w = f)
include hF

theorem formatA_of_fields : formatA f (fieldNNN w) = w := by
  rw [← hF, formatA_fields]

theorem formatXI_of_fields {nn : Byte} (hNN : fieldNN w = nn) : formatXI f (nibbleX w) nn = w := by
  rw [← hF, ← hNN, formatXI_fields]

theorem formatXY_of_fields {n : Nibble} (hN : fieldN w = n) : formatXY f (nibbleX w) (nibbleY w) n = w := by
  rw [← hF, ← hN, formatXY_fields]

end Fields

section Decoded
variable {w : Word} {i : Instr}

theorem encode_of_decodeFamily0 (hF : fieldF w = 0) : decodeFamily0 w = .ok i → encode i = w := by
  fun_cases decodeFamily0 w <;> rintro ⟨⟩ <;> exact formatXI_of_fields hF ‹_›

theorem encode_of_decodeFamily8 (hF : fieldF w = 8) : decodeFamily8 w = .ok i → encode i = w := by
  fun_cases decodeFamily8 w <;> rintro ⟨⟩ <;> simpa [encode] using formatXY_of_fields hF ‹fieldN w = _›

theorem encode_of_decodeFamilyE (hF : fieldF w = 14) : decodeFamilyE w = .ok i → encode i = w := by
  fun_cases decodeFamilyE w <;> rintro ⟨⟩ <;> simpa [encode] using formatXI_of_fields hF ‹fieldNN w = _›

theorem encode_of_decodeFamilyF (hF : fieldF w = 15) : decodeFamilyF w = .ok i → encode i = w := by
  fun_cases decodeFamilyF w <;> rintro ⟨⟩ <;> simpa [encode] using formatXI_of_fields hF ‹fieldNN w = _›

/-- The branches of the decoder: the four families that look at a low field, then the families of each format. -/
theorem encode_of_decodeWord : decodeWord w = .ok i → encode i = w := by
  fun_cases decodeWord w with
  | case1 hF => exact encode_of_decodeFamily0 hF
  | case9 => exact encode_of_decodeFamily8 ‹_›
  | case15 => exact encode_of_decodeFamilyE ‹_›
  | case16 =>
    have hF := nibble_cases (fieldF w)
    exact encode_of_decodeFamilyF (by tauto)
  | case2 | case3 | case11 | case12 =>
    rintro ⟨⟩
    exact formatA_of_fields ‹_›
  | case4 | case5 | case7 | case8 | case13 =>
    rintro ⟨⟩
    simpa [encode] using formatXI_of_fields ‹fieldF w = _› rfl
  | case6 | case10 | case14 =>
    rintro ⟨⟩
    simpa [encode] using formatXY_of_fields ‹fieldF w = _› rfl

end Decoded

/-- Settles O2: a word is put together from its own fields. -/
theorem encodeInvertsDecode : Obligations.EncodeInvertsDecode := fun _ _ => encode_of_decodeWord

/-! ## The test of a row (30_encoding.md R74) -/

theorem row_covers_encode (i : Instr) : i.row.covers (encode i) = true := by
  cases i with
  | jump | call | loadIndex | jumpPlusV0 => exact covers_formatA rfl
  | skipEqImm | skipNeqImm | loadImm | addImm | random => exact covers_formatXI rfl
  | skipEqReg | skipNeqReg | drawSprite => exact covers_formatXY rfl
  | move | or | and | xor | addCarry | subBorrow | shiftRight | subBorrowRev | shiftLeft =>
    exact covers_formatXY_low rfl
  | _ => exact covers_formatXI_low rfl

theorem rowTest_of_decodeWord {w : Word} {i : Instr} (h : decodeWord w = .ok i) :
    w &&& i.row.mask = i.row.value := by
  rw [← encode_of_decodeWord h]
  exact beq_iff_eq.mp (row_covers_encode i)

/-- The instruction of the row of `j` whose fields, ignored ones included, are those of the word `w` (R71, R76).
`decodeWord_of_rowTest` ties it to the decoder. -/
def Instr.withFields (j : Instr) (w : Word) : Instr :=
  match j with
  | .clear _ => .clear (nibbleX w)
  | .ret _ => .ret (nibbleX w)
  | .jump _ => .jump (fieldNNN w)
  | .call _ => .call (fieldNNN w)
  | .skipEqImm _ _ => .skipEqImm (fieldX w) (fieldNN w)
  | .skipNeqImm _ _ => .skipNeqImm (fieldX w) (fieldNN w)
  | .skipEqReg _ _ _ => .skipEqReg (fieldX w) (fieldY w) (fieldN w)
  | .loadImm _ _ => .loadImm (fieldX w) (fieldNN w)
  | .addImm _ _ => .addImm (fieldX w) (fieldNN w)
  | .move _ _ => .move (fieldX w) (fieldY w)
  | .or _ _ => .or (fieldX w) (fieldY w)
  | .and _ _ => .and (fieldX w) (fieldY w)
  | .xor _ _ => .xor (fieldX w) (fieldY w)
  | .addCarry _ _ => .addCarry (fieldX w) (fieldY w)
  | .subBorrow _ _ => .subBorrow (fieldX w) (fieldY w)
  | .shiftRight _ _ => .shiftRight (fieldX w) (nibbleY w)
  | .subBorrowRev _ _ => .subBorrowRev (fieldX w) (fieldY w)
  | .shiftLeft _ _ => .shiftLeft (fieldX w) (nibbleY w)
  | .skipNeqReg _ _ _ => .skipNeqReg (fieldX w) (fieldY w) (fieldN w)
  | .loadIndex _ => .loadIndex (fieldNNN w)
  | .jumpPlusV0 _ => .jumpPlusV0 (fieldNNN w)
  | .random _ _ => .random (fieldX w) (fieldNN w)
  | .drawSprite _ _ _ => .drawSprite (fieldX w) (fieldY w) (nibbleNum (fieldN w))
  | .skipKeyPressed _ => .skipKeyPressed (fieldX w)
  | .skipKeyNotPressed _ => .skipKeyNotPressed (fieldX w)
  | .readDelay _ => .readDelay (fieldX w)
  | .waitKey _ => .waitKey (fieldX w)
  | .setDelay _ => .setDelay (fieldX w)
  | .setSound _ => .setSound (fieldX w)
  | .addIndex _ => .addIndex (fieldX w)
  | .fontAddr _ => .fontAddr (fieldX w)
  | .bcd _ => .bcd (fieldX w)
  | .storeRegs _ => .storeRegs (fieldX w)
  | .loadRegs _ => .loadRegs (fieldX w)

theorem Instr.row_withFields (j : Instr) (w : Word) : (j.withFields w).row = j.row := by cases j <;> rfl

section RowTest
variable {w v : Word}

theorem fieldN_of_mask (h : w &&& 0xF00F#16 = v) : fieldN w = fieldN v := by
  rw [← h, ← formatXY_fields w, formatXY_mask, fieldN_formatXY, fieldN_formatXY]

theorem fieldNN_of_mask (h : w &&& 0xF0FF#16 = v) : fieldNN w = fieldNN v := by
  rw [← h, ← formatXI_fields w, formatXI_mask, fieldNN_formatXI, fieldNN_formatXI]

/-- Every mask of the map compares the family. -/
theorem fieldF_of_rowTest {j : Instr} (h : w &&& j.row.mask = j.row.value) : fieldF w = fieldF j.row.value := by
  have hmask : fieldF j.row.mask = BitVec.allOnes 4 := by cases j <;> simp [Instr.row, fieldF]
  rw [← h, fieldF, fieldF, BitVec.extractLsb'_and, ← fieldF, ← fieldF, hmask, BitVec.and_allOnes]

/-- A word that passes the test of a row decodes to that row: the test fixes the fields that the decoder branches
on. -/
theorem decodeWord_of_rowTest {j : Instr} (h : w &&& j.row.mask = j.row.value) :
    decodeWord w = .ok (j.withFields w) := by
  have hF := fieldF_of_rowTest h
  cases j <;> simp only [Instr.row] at h hF
  case clear | ret =>
    rw [decodeWord_family0 w hF, decodeFamily0, fieldNN_of_mask h]
    rfl
  case move | or | and | xor | addCarry | subBorrow | shiftRight | subBorrowRev | shiftLeft =>
    rw [decodeWord_family8 w hF, decodeFamily8, fieldN_of_mask h]
    rfl
  case skipKeyPressed | skipKeyNotPressed =>
    rw [decodeWord_familyE w hF, decodeFamilyE, fieldNN_of_mask h]
    rfl
  case readDelay | waitKey | setDelay | setSound | addIndex | fontAddr | bcd | storeRegs | loadRegs =>
    rw [decodeWord_familyF w hF, decodeFamilyF, fieldNN_of_mask h]
    rfl
  case jump | call | skipEqImm | skipNeqImm | skipEqReg | loadImm | addImm | skipNeqReg | loadIndex | jumpPlusV0
      | random | drawSprite =>
    rw [decodeWord, hF]
    rfl

end RowTest

/-- The words that pass the test of the row of `j` are those that decode to it. -/
theorem encodedAs_row (j : Instr) : Machine.EncodedAs j.row.mask j.row.value j.withFields := fun w =>
  ⟨decodeWord_of_rowTest, fun h => j.row_withFields w ▸ rowTest_of_decodeWord h⟩

/-- Settles O3: the rows whose test a word passes are the rows it decodes to, at most one. -/
theorem decoderFollowsOpcodeMap : Obligations.DecoderFollowsOpcodeMap := by
  intro w
  refine ⟨fun i hi => ⟨rowTest_of_decodeWord hi, fun j hj => ?_⟩, fun ⟨e, he⟩ j hj => ?_, fun hNone => ?_⟩
  · have hij : i = j.withFields w := Except.ok.inj (hi.symm.trans ((encodedAs_row j w).mp hj))
    rw [hij, j.row_withFields]
  · cases he.symm.trans ((encodedAs_row j w).mp hj)
  · cases hw : decodeWord w with
    | ok i => exact absurd (rowTest_of_decodeWord hw) (hNone i)
    | error e => exact ⟨e, rfl⟩

/-! ## The no-op words (30_encoding.md R75) -/

section NoOp
variable (w : Word)

theorem decodeFamily0_error_iff : (∃ e, decodeFamily0 w = .error e) ↔ fieldNN w ∉ [0xE0, 0xEE] := by
  fun_cases decodeFamily0 w <;> simp_all

theorem decodeFamily8_error_iff :
    (∃ e, decodeFamily8 w = .error e) ↔ fieldN w ∈ [8, 9, 0xA, 0xB, 0xC, 0xD, 0xF] := by
  have hN := nibble_cases (fieldN w)
  fun_cases decodeFamily8 w <;> simp_all

theorem decodeFamilyE_error_iff : (∃ e, decodeFamilyE w = .error e) ↔ fieldNN w ∉ [0x9E, 0xA1] := by
  fun_cases decodeFamilyE w <;> simp_all

theorem decodeFamilyF_error_iff : (∃ e, decodeFamilyF w = .error e) ↔
    fieldNN w ∉ [0x07, 0x0A, 0x15, 0x18, 0x1E, 0x29, 0x33, 0x55, 0x65] := by
  fun_cases decodeFamilyF w <;> simp_all

/-- Twelve families have an instruction for every word; the other four look at a low field. -/
theorem decodeWord_error_iff : (∃ e, decodeWord w = .error e) ↔
    (fieldF w = 0 ∧ ∃ e, decodeFamily0 w = .error e) ∨ (fieldF w = 8 ∧ ∃ e, decodeFamily8 w = .error e) ∨
    (fieldF w = 14 ∧ ∃ e, decodeFamilyE w = .error e) ∨ (fieldF w = 15 ∧ ∃ e, decodeFamilyF w = .error e) := by
  rcases nibble_cases (fieldF w) with
    h | h | h | h | h | h | h | h | h | h | h | h | h | h | h | h <;> simp [decodeWord, h]

theorem fieldF_eq_iff (f : Nibble) : fieldF w = f ↔ w.toNat / 4096 = f.toNat := by
  rw [← BitVec.toNat_inj, fieldF_toNat]

theorem fieldN_eq_iff (n : Nibble) : fieldN w = n ↔ w.toNat % 16 = n.toNat := by
  rw [← BitVec.toNat_inj, fieldN_toNat]

theorem fieldNN_eq_iff (nn : Byte) : fieldNN w = nn ↔ w.toNat % 256 = nn.toNat := by
  rw [← BitVec.toNat_inj, fieldNN_toNat]

end NoOp

/-- Settles O4, family by family, each field read as a number. -/
theorem noOpWordsAreExactlyThoseListed : Obligations.NoOpWordsAreExactlyThoseListed := by
  intro w
  rw [decodeWord_error_iff, decodeFamily0_error_iff, decodeFamily8_error_iff, decodeFamilyE_error_iff,
    decodeFamilyF_error_iff]
  simp [fieldF_eq_iff, fieldN_eq_iff, fieldNN_eq_iff]

/-- Settles O5: each word is closed, and the decoder computes. -/
theorem writtenOutWordsDecode : Obligations.WrittenOutWordsDecode := by
  unfold Obligations.WrittenOutWordsDecode
  decide

end Sys2Proof
end

section
/-! SUPPORT. What an instruction slot does, in each of the cases of the Step (30_encoding.md R73, 60_exceptions.md
R223). -/

namespace Sys2Proof.Machine

section PerformStep
variable {s : State}

theorem performStep_halted (h : s.halted = true) : performStep s = .fault (stopReason s.fault) := by
  simp [performStep, h]

theorem performStep_paused_or_await (hh : s.halted = false) (h : s.paused = true ∨ s.await = true) :
    performStep s = .next s := by
  obtain h | h := h <;> simp [performStep, fetchExecute, hh, h]

theorem performStep_fetch_outside (hh : s.halted = false) (hp : s.paused = false) (ha : s.await = false)
    (hpc : 0xFFE < s.pc.toNat) : performStep s = .next (s.raised .memoryOutOfRange) := by
  simp [performStep, fetchExecute, raise, hh, hp, ha, fetchWord_of_gt hpc]

/-- The fetched word is big-endian (20_memory.md R54). -/
theorem fetchWord_eq_some {w : Word} (hpc : s.pc.toNat ≤ 0xFFE)
    (hw : w.toNat = 256 * (s.mem.read s.pc.toNat).toNat + (s.mem.read (s.pc.toNat + 1)).toNat) :
    fetchWord s = some w := by
  rw [fetchWord_of_le hpc, Option.some_inj]
  exact BitVec.eq_of_toNat_eq ((wordOfBytes_toNat _ _).trans hw.symm)

end PerformStep

theorem SlotNext.exists_pending {s u : State} (h : SlotNext s u) : ∃ rest, u = { s with pending := rest } :=
  ⟨_, h.frame⟩

/-- Settles O6: either way a slot can be next, it fetches the word at `PC` and runs what it decodes to. -/
theorem stepRunsTheDecodedInstruction : Obligations.StepRunsTheDecodedInstruction := by
  intro s w i hh hp ha hpc hw hi
  have hfetch := fetchWord_eq_some hpc hw
  exact ⟨fun hnil => (step_nil hnil).trans (performStep_exec hh hp ha hfetch hi),
    fun rest hcons => (step_cons hcons).trans
      (performStep_exec (s := { s with pending := rest }) hh hp ha hfetch hi)⟩

/-- Settles O7: the fetch is all that such a slot performs. -/
theorem noOpWordChangesOnlyIrAndPc : Obligations.NoOpWordChangesOnlyIrAndPc := by
  intro s u w e hslot hh hp ha hpc hw he
  rw [hslot.step_eq]
  obtain ⟨rest, rfl⟩ := hslot.exists_pending
  exact performStep_noOp hh hp ha (fetchWord_eq_some hpc hw) he

/-- Settles O8: taking the slot off the list changes neither `PC` nor the flags. -/
theorem fetchOutsideMemoryRaises : Obligations.FetchOutsideMemoryRaises := by
  intro s u hslot hh hp ha hpc
  rw [hslot.step_eq]
  obtain ⟨rest, rfl⟩ := hslot.exists_pending
  exact performStep_fetch_outside hh hp ha hpc

/-- Settles O9: the flags are judged before the fetch. -/
theorem slotsThatExecuteNothing : Obligations.SlotsThatExecuteNothing := by
  intro s u hslot
  rw [hslot.step_eq]
  obtain ⟨rest, rfl⟩ := hslot.exists_pending
  exact ⟨fun hh h => performStep_paused_or_await hh h, fun hh => performStep_halted hh⟩

end Sys2Proof.Machine
end

section
/-! SUPPORT. Call and Return with the number of entries in use given, the flow instructions that change one element,
and Clear (40_family_0_1_2_flow.md R100 to R103, 43_family_9_to_C.md R141, R142). -/

namespace Sys2Proof.Machine

theorem exec_of_faultOf {i : Instr} {s : State} {c : FaultCode} (h : faultOf s i = c) (hc : c ≠ .none) :
    exec i s = .next (s.raised c) := by
  subst h
  rw [exec_eq, if_neg hc]

/-! ## Call and Return -/

section CallReturn
variable {s : State} {k : Fin 16}

theorem exec_call (nnn : Addr) (h : s.sp.val = k.val) :
    exec (.call nnn) s = .next ((s.push s.pc).setPc (zextAddr nnn)) :=
  exec_of_faultOf_none (if_neg (by omega))

theorem exec_call_full (nnn : Addr) (h : s.sp.val = 16) : exec (.call nnn) s = .next (s.raised .stackOverflow) :=
  exec_of_faultOf (if_pos h) (by decide)

theorem State.push_sp_val (a : Word) (h : s.sp.val = k.val) : (s.push a).sp.val = k.val + 1 := by
  rw [State.push_sp, spUp_val (by omega), h]

theorem State.popPc_eq (h : s.sp.val = k.val + 1) : s.popPc = { s with sp := k.castSucc, pc := s.stk[k] } := by
  have hdown : spDown s.sp = k.castSucc := Fin.ext (by rw [spDown_val, h]; rfl)
  have hslot : stackSlot k.castSucc = k := stackSlot_eq rfl
  simp only [State.popPc, hdown, hslot]

theorem exec_ret (ign : Nibble) (h : s.sp.val = k.val + 1) :
    exec (.ret ign) s = .next { s with sp := k.castSucc, pc := s.stk[k] } := by
  rw [← State.popPc_eq h]
  exact exec_of_faultOf_none (if_neg (by omega))

theorem exec_ret_empty (ign : Nibble) (h : s.sp.val = 0) : exec (.ret ign) s = .next (s.raised .stackUnderflow) :=
  exec_of_faultOf (if_pos h) (by decide)

end CallReturn

/-- Settles O15: Return reads only `SP` and the entry below it, the one the Call pushed. -/
theorem returnUndoesCall : Obligations.ReturnUndoesCall := by
  intro nnn ign s k hk
  refine ⟨_, exec_call nnn hk, fun b hstk hsp => ?_⟩
  have hbsp : b.sp.val = k.val + 1 := (congrArg Fin.val hsp).trans (State.push_sp_val s.pc hk)
  have htop : b.stk[k] = s.pc := hstk.trans ((State.push_get s.pc hk k).trans (if_pos rfl))
  have hssp : s.sp = k.castSucc := Fin.ext hk
  rw [exec_ret ign hbsp, htop, hssp]

/-- Settles O13: the push writes the one entry at `SP`. -/
theorem callPushesAndJumps : Obligations.CallPushesAndJumps := by
  intro nnn s
  refine ⟨fun k hk => ⟨_, exec_call nnn hk, rfl, ?_, fun j hj => ?_, ?_, zextAddr_toNat nnn⟩, exec_call_full nnn⟩
  · exact (State.push_get s.pc hk k).trans (if_pos rfl)
  · exact (State.push_get s.pc hk j).trans (if_neg hj)
  · rw [hk]
    exact State.push_sp_val s.pc hk

/-- Settles O14: with an entry in use Return is the pop of the highest one. -/
theorem returnPopsThePc : Obligations.ReturnPopsThePc := fun ign _ =>
  ⟨fun _ hk => ⟨_, exec_ret ign hk, rfl, rfl, rfl⟩, exec_ret_empty ign⟩

/-! ## Clear, the jumps and LoadIndex -/

/-- Settles O11: a bit of the zero display is 0. -/
theorem clearMakesEveryPixelZero : Obligations.ClearMakesEveryPixelZero := fun _ _ =>
  ⟨_, exec_of_faultOf_none rfl, rfl, fun _ _ _ _ => BitVec.getLsbD_zero⟩

/-- Settles O12: the encodings are rows of the opcode map, and no sum of an address and a byte wraps. -/
theorem jumpsAndLoadIndex : Obligations.JumpsAndLoadIndex := by
  refine ⟨⟨encodedAs_row (.jump 0), encodedAs_row (.jumpPlusV0 0), encodedAs_row (.loadIndex 0)⟩, fun nnn s => ?_⟩
  exact ⟨⟨_, exec_of_faultOf_none rfl, rfl, zextAddr_toNat nnn⟩,
    ⟨_, exec_of_faultOf_none rfl, rfl, zextAddr_add_zextByte_toNat nnn (s.reg 0)⟩,
    ⟨_, exec_of_faultOf_none rfl, rfl, zextAddr_toNat nnn⟩⟩

end Sys2Proof.Machine
end

section
/-! SUPPORT. The effect of a conditional skip and of a register write, in the shapes of the obligations, and the
skips, loads and plain sums that have them (41_family_3_to_7_skip_imm.md R110 to R114, 42_family_8_alu.md R120,
43_family_9_to_C.md R140). -/

namespace Sys2Proof.Machine

theorem State.skipsWhen_skipIf (s : State) {c : Bool} {p : Prop} (h : c = true ↔ p) : SkipsWhen s (s.skipIf c) p where
  frame := by cases c <;> rfl
  taken hp := by
    rw [State.skipIf_pc, if_pos (h.mpr hp)]
    exact BitVec.toNat_add s.pc 2
  notTaken hp := by rw [State.skipIf_pc, if_neg (mt h.mp hp)]

theorem State.writesReg_setReg (s : State) (x : Reg) {b : Byte} {n : Nat} (h : b.toNat = n) :
    WritesReg s (s.setReg x b) x n where
  frame := rfl
  value := by rw [State.reg_setReg, if_pos rfl, h]
  others r hr := by rw [State.reg_setReg, if_neg hr]

/-- Settles O16: each of the four is a skip on the comparison of its operands. -/
theorem skipsCompareForEquality : Obligations.SkipsCompareForEquality := fun _ _ _ _ s =>
  ⟨⟨_, exec_of_faultOf_none rfl, s.skipsWhen_skipIf beq_iff_eq⟩,
    ⟨_, exec_of_faultOf_none rfl, s.skipsWhen_skipIf bne_iff_ne⟩,
    ⟨_, exec_of_faultOf_none rfl, s.skipsWhen_skipIf beq_iff_eq⟩,
    ⟨_, exec_of_faultOf_none rfl, s.skipsWhen_skipIf bne_iff_ne⟩⟩

/-- Settles O18: the encodings are rows of the opcode map, and each instruction is one register write, the sum of
bytes being the sum modulo 256. -/
theorem loadsAndPlainSums : Obligations.LoadsAndPlainSums := by
  refine ⟨⟨encodedAs_row (.loadImm 0 0), encodedAs_row (.addImm 0 0), encodedAs_row (.move 0 0)⟩, fun x y nn s => ?_⟩
  exact ⟨⟨_, exec_of_faultOf_none rfl, s.writesReg_setReg x rfl⟩,
    ⟨_, exec_of_faultOf_none rfl, s.writesReg_setReg x (BitVec.toNat_add (s.reg x) nn)⟩,
    ⟨_, exec_of_faultOf_none rfl, s.writesReg_setReg x rfl⟩⟩

end Sys2Proof.Machine
end

section
/-! SUPPORT. The effect of a register write followed by the flag, what each flag says of its operands, and the logic,
arithmetic and shift forms of family 8 (42_family_8_alu.md R121 to R128). -/

namespace Sys2Proof.Machine

/-- The flag is written last, so with `x = 15` it is what stands in `VF` (10_state.md R21). -/
theorem State.writesRegFlag_setRegFlag (s : State) (x : Reg) {b : Byte} {n : Nat} {c : Bool} {p : Prop}
    (hb : b.toNat = n) (hc : c = true ↔ p) : WritesRegFlag s (s.setRegFlag x b c) x n p where
  frame := rfl
  value hx := by rw [State.reg_setRegFlag, if_neg hx, if_pos rfl, hb]
  flagSet hp := by rw [State.reg_setRegFlag, if_pos rfl, hc.mpr hp]; rfl
  flagClear hp := by rw [State.reg_setRegFlag, if_pos rfl, Bool.eq_false_iff.mpr (mt hc.mp hp)]; rfl
  others r hx hf := by rw [State.reg_setRegFlag, if_neg hf, if_neg hx]

/-! ## The results and the flags as numbers -/

theorem byte_toNat_sub (a b : Byte) : (a - b).toNat = (a.toNat + 256 - b.toNat) % 256 := by
  rw [BitVec.toNat_sub]
  omega

theorem byte_toNat_shiftRight_one (a : Byte) : (a >>> 1).toNat = a.toNat / 2 := by
  rw [BitVec.toNat_ushiftRight, Nat.shiftRight_one]

theorem byte_toNat_shiftLeft_one (a : Byte) : (a <<< 1).toNat = 2 * a.toNat % 256 := by
  rw [BitVec.toNat_shiftLeft, Nat.shiftLeft_eq, Nat.pow_one, Nat.mul_comm]

theorem carryOut_iff (a b : Byte) : carryOut a b = true ↔ 255 < a.toNat + b.toNat := decide_eq_true_iff

theorem noBorrow_iff (a b : Byte) : noBorrow a b = true ↔ b.toNat ≤ a.toNat := decide_eq_true_iff

theorem outLow_iff (a : Byte) : outLow a = true ↔ a.toNat % 2 = 1 := by
  rw [outLow, BitVec.getLsbD, Nat.testBit_zero, decide_eq_true_iff]

theorem outHigh_iff (a : Byte) : outHigh a = true ↔ 128 ≤ a.toNat := by
  rw [outHigh, ← BitVec.msb_eq_getLsbD_last a, BitVec.msb_eq_decide, decide_eq_true_iff]

/-! ## The instructions -/

/-- Settles O19: the encodings are rows of the opcode map, and each instruction is one register write. -/
theorem logicIsBitwise : Obligations.LogicIsBitwise := by
  refine ⟨⟨encodedAs_row (.or 0 0), encodedAs_row (.and 0 0), encodedAs_row (.xor 0 0)⟩, fun x y s => ?_⟩
  exact ⟨⟨_, exec_of_faultOf_none rfl, s.writesReg_setReg x (BitVec.toNat_or (s.reg x) (s.reg y))⟩,
    ⟨_, exec_of_faultOf_none rfl, s.writesReg_setReg x (BitVec.toNat_and (s.reg x) (s.reg y))⟩,
    ⟨_, exec_of_faultOf_none rfl, s.writesReg_setReg x (BitVec.toNat_xor (s.reg x) (s.reg y))⟩⟩

/-- Settles O20: the encoding is a row of the opcode map, and the instruction is a register write with the carry as
its flag. -/
theorem addCarrySumsAndCarries : Obligations.AddCarrySumsAndCarries :=
  ⟨encodedAs_row (.addCarry 0 0), fun x y s => ⟨_, exec_of_faultOf_none rfl,
    s.writesRegFlag_setRegFlag x (BitVec.toNat_add (s.reg x) (s.reg y)) (carryOut_iff (s.reg x) (s.reg y))⟩⟩

/-- Settles O21: the encodings are rows of the opcode map, and each instruction is a register write with the
no-borrow test as its flag, the operands exchanged in the second. -/
theorem subtractionsAndBorrow : Obligations.SubtractionsAndBorrow := by
  refine ⟨⟨encodedAs_row (.subBorrow 0 0), encodedAs_row (.subBorrowRev 0 0)⟩, fun x y s => ?_⟩
  have writes (a b : Byte) := s.writesRegFlag_setRegFlag x (byte_toNat_sub a b) (noBorrow_iff a b)
  exact ⟨⟨_, exec_of_faultOf_none rfl, writes (s.reg x) (s.reg y)⟩,
    ⟨_, exec_of_faultOf_none rfl, writes (s.reg y) (s.reg x)⟩⟩

/-- Settles O22: the encodings are rows of the opcode map, and each instruction is a register write with the bit
shifted out as its flag. -/
theorem shiftsMoveOneBitOut : Obligations.ShiftsMoveOneBitOut := by
  refine ⟨⟨encodedAs_row (.shiftRight 0 0), encodedAs_row (.shiftLeft 0 0)⟩, fun x _ s => ?_⟩
  exact ⟨⟨_, exec_of_faultOf_none rfl,
      s.writesRegFlag_setRegFlag x (byte_toNat_shiftRight_one (s.reg x)) (outLow_iff (s.reg x))⟩,
    ⟨_, exec_of_faultOf_none rfl,
      s.writesRegFlag_setRegFlag x (byte_toNat_shiftLeft_one (s.reg x)) (outHigh_iff (s.reg x))⟩⟩

end Sys2Proof.Machine
end

section
/-! SUPPORT. Random: a draw moves only the draw counter, so the registers after it are those of the register write
(43_family_9_to_C.md R143). -/

namespace Sys2Proof.Machine

@[simp] theorem State.drewRnd_reg (s : State) (r : Reg) : s.drewRnd.reg r = s.reg r := rfl

/-- Settles O23: one register write of the masked byte and one draw; bits of a conjunction are conjunctions of bits. -/
theorem randomMasksTheDrawnByte : Obligations.RandomMasksTheDrawnByte := by
  intro x nn s
  refine ⟨_, exec_of_faultOf_none rfl, rfl, fun k _ => ?_, fun r hr => ?_⟩
  · rw [effect, State.drewRnd_reg, State.reg_setReg, if_pos rfl, BitVec.getLsbD_and]
  · rw [effect, State.drewRnd_reg, State.reg_setReg, if_neg hr]

end Sys2Proof.Machine
end

section
/-! SUPPORT. DrawSprite in the words of `SpriteOn`: the pixels and the collision bit of the drawn sprite, and the
sprite drawn a second time (44_family_D_draw.md R150 to R152). -/

namespace Sys2Proof.Machine

/-- The display wraps: a pixel is its coordinates modulo 64 and 32 (R151). -/
theorem pixelOn_mod (d : Display) (px py : Nat) : pixelOn d (px % 64) (py % 32) = pixelOn d px py :=
  congrArg d.getLsbD (pixelIndex_inj.mpr ⟨Nat.mod_mod px 64, Nat.mod_mod py 32⟩)

theorem flagByte_eq_one_iff {c : Bool} : flagByte c = 1 ↔ c = true := by cases c <;> decide

section Sprite
variable {x y : Reg} {n : Fin 16} {s t : State}

/-- The rows that are drawn are the bytes at `I`, so `RowsOn` of them is `SpriteOn` of the instruction. -/
theorem spriteOn_mod_iff_rowsOn (px py : Nat) : SpriteOn s x y n (px % 64) (py % 32) ↔
    RowsOn (s.reg x).toNat (s.reg y).toNat 0 (s.mem.readBytes s.base n.val) px py := by
  constructor
  · rintro ⟨r, hr, c, hc, hbit, hx, hy⟩
    refine ⟨r, by rwa [Memory.readBytes_length], c, hc, ?_, hx, by rwa [Nat.zero_add]⟩
    rwa [Memory.readBytes_get _ _ _ _ hr]
  · rintro ⟨r, hr, c, hc, hbit, hx, hy⟩
    rw [Memory.readBytes_length] at hr
    rw [Memory.readBytes_get _ _ _ _ hr] at hbit
    exact ⟨r, hr, c, hc, hbit, hx, by rwa [Nat.zero_add] at hy⟩

theorem spriteOn_iff_rowsOn {px py : Nat} (hx : px < 64) (hy : py < 32) : SpriteOn s x y n px py ↔
    RowsOn (s.reg x).toNat (s.reg y).toNat 0 (s.mem.readBytes s.base n.val) px py := by
  rw [← spriteOn_mod_iff_rowsOn, Nat.mod_eq_of_lt hx, Nat.mod_eq_of_lt hy]

/-- The sprite and its place depend on memory, `I` and the two coordinate registers only. -/
theorem spriteOn_congr (hmem : t.mem = s.mem) (hidx : t.idx = s.idx) (hx : t.reg x = s.reg x)
    (hy : t.reg y = s.reg y) (px py : Nat) : SpriteOn t x y n px py ↔ SpriteOn s x y n px py := by
  simp only [SpriteOn, hmem, hidx, hx, hy]

/-! ## The drawn sprite -/

theorem spriteRows_length_le : (s.mem.readBytes s.base n.val).length ≤ 32 := by
  rw [Memory.readBytes_length]
  omega

theorem pixelOn_drawnSprite_of_on {px py : Nat} (hx : px < 64) (hy : py < 32) (h : SpriteOn s x y n px py) :
    pixelOn (drawnSprite x y n s).disp px py = !pixelOn s.disp px py :=
  ((drawRows_spec _ _ _ 0 ⟨s.disp, false⟩ spriteRows_length_le).1 px py).1 ((spriteOn_iff_rowsOn hx hy).mp h)

theorem pixelOn_drawnSprite_of_not_on {px py : Nat} (hx : px < 64) (hy : py < 32) (h : ¬ SpriteOn s x y n px py) :
    pixelOn (drawnSprite x y n s).disp px py = pixelOn s.disp px py :=
  ((drawRows_spec _ _ _ 0 ⟨s.disp, false⟩ spriteRows_length_le).1 px py).2 (mt (spriteOn_iff_rowsOn hx hy).mpr h)

/-- The collision bit: a set sprite bit lies on a lit pixel (R152). -/
theorem drawnSprite_coll_iff : (drawnSprite x y n s).coll = true ↔
    ∃ px py, px < 64 ∧ py < 32 ∧ SpriteOn s x y n px py ∧ pixelOn s.disp px py = true := by
  rw [drawnSprite, (drawRows_spec _ _ _ 0 ⟨s.disp, false⟩ spriteRows_length_le).2]
  constructor
  · rintro (h | ⟨px, py, hon, hlit⟩)
    · cases h
    · exact ⟨px % 64, py % 32, Nat.mod_lt _ (by decide), Nat.mod_lt _ (by decide),
        (spriteOn_mod_iff_rowsOn px py).mpr hon, (pixelOn_mod s.disp px py).trans hlit⟩
  · rintro ⟨px, py, hx, hy, hon, hlit⟩
    exact .inr ⟨px, py, (spriteOn_iff_rowsOn hx hy).mp hon, hlit⟩

/-! ## The instruction -/

theorem exec_drawSprite (h : n.val = 0 ∨ s.idx.toNat + n.val - 1 ≤ 0xFFF) :
    exec (.drawSprite x y n) s = .next (effect (.drawSprite x y n) s) :=
  exec_of_faultOf_none (if_neg (by omega))

theorem effect_drawSprite_disp : (effect (.drawSprite x y n) s).disp = (drawnSprite x y n s).disp := rfl

theorem effect_drawSprite_reg (r : Reg) :
    (effect (.drawSprite x y n) s).reg r = if r = 15 then flagByte (drawnSprite x y n s).coll else s.reg r :=
  State.reg_setReg ..

theorem effect_drawSprite_flag : (effect (.drawSprite x y n) s).reg 15 = flagByte (drawnSprite x y n s).coll :=
  (effect_drawSprite_reg 15).trans (if_pos rfl)

/-! ## The sprite drawn a second time -/

section Again
variable (hdisp : t.disp = (drawnSprite x y n s).disp)
  (hsame : ∀ px py, SpriteOn t x y n px py ↔ SpriteOn s x y n px py)
include hdisp hsame

/-- Each pixel under the sprite is inverted twice, and no other is inverted. -/
theorem drawnSprite_disp_again : (drawnSprite x y n t).disp = s.disp := by
  refine display_ext fun px py hx hy => ?_
  by_cases h : SpriteOn s x y n px py
  · rw [pixelOn_drawnSprite_of_on hx hy ((hsame px py).mpr h), hdisp, pixelOn_drawnSprite_of_on hx hy h,
      Bool.not_not]
  · rw [pixelOn_drawnSprite_of_not_on hx hy (mt (hsame px py).mp h), hdisp,
      pixelOn_drawnSprite_of_not_on hx hy h]

/-- Under the sprite the lit pixels are the ones that were off before the first draw. -/
theorem drawnSprite_coll_again_iff : (drawnSprite x y n t).coll = true ↔
    ∃ px py, px < 64 ∧ py < 32 ∧ SpriteOn s x y n px py ∧ pixelOn s.disp px py = false := by
  rw [drawnSprite_coll_iff]
  refine exists_congr fun px => exists_congr fun py => and_congr_right fun hx => and_congr_right fun hy => ?_
  rw [hsame px py]
  refine and_congr_right fun h => ?_
  rw [hdisp, pixelOn_drawnSprite_of_on hx hy h, Bool.not_eq_true']

end Again

end Sprite

/-- Settles O32: with no fault the instruction writes the drawn sprite's display, then its collision bit to `VF`. -/
theorem drawSpriteXorsTheSprite : Obligations.DrawSpriteXorsTheSprite := by
  intro x y n s
  refine ⟨fun hfit => ⟨_, exec_drawSprite hfit, rfl, fun px py hx hy => ⟨?_, ?_⟩, fun hcoll => ?_, fun hfree => ?_,
    fun r hr => ?_⟩, fun hrows hout => exec_of_faultOf (if_pos ⟨hrows, hout⟩) (by decide)⟩
  · exact pixelOn_drawnSprite_of_on hx hy
  · exact pixelOn_drawnSprite_of_not_on hx hy
  · rw [effect_drawSprite_flag, drawnSprite_coll_iff.mpr hcoll]
    rfl
  · rw [effect_drawSprite_flag, Bool.eq_false_iff.mpr (mt drawnSprite_coll_iff.mp hfree)]
    rfl
  · rw [effect_drawSprite_reg, if_neg hr]

/-- Settles O33: the first draw leaves memory, `I` and the two coordinates, so the second draws the same sprite at
the same place. -/
theorem drawingTwiceRestoresTheDisplay : Obligations.DrawingTwiceRestoresTheDisplay := by
  intro x y n s t hfit hfirst hx hy
  obtain rfl : effect (.drawSprite x y n) s = t := Host.Outcome.next.inj ((exec_drawSprite hfit).symm.trans hfirst)
  have hidx : (effect (.drawSprite x y n) s).idx = s.idx := effect_idx s rfl
  have hsame := spriteOn_congr (n := n) (effect_mem s rfl) hidx hx hy
  refine ⟨_, exec_drawSprite (by rwa [hidx]), ?_, ?_⟩
  · exact drawnSprite_disp_again effect_drawSprite_disp hsame
  · rw [effect_drawSprite_flag, flagByte_eq_one_iff]
    exact drawnSprite_coll_again_iff effect_drawSprite_disp hsame

end Sys2Proof.Machine
end

section
/-! SUPPORT. The two key skips, as skips on one bit of the pad latch (45_family_E_keys.md R160 to R162). -/

namespace Sys2Proof.Machine

/-! ## One bit of a word as a number -/

theorem getLsbD_iff_div_mod (w : Word) (k : Nat) : w.getLsbD k = true ↔ w.toNat / 2 ^ k % 2 = 1 := by
  rw [BitVec.getLsbD, Nat.testBit_eq_decide_div_mod_eq, decide_eq_true_iff]

theorem not_getLsbD_iff_div_mod (w : Word) (k : Nat) : (!w.getLsbD k) = true ↔ w.toNat / 2 ^ k % 2 = 0 := by
  rw [Bool.not_eq_true', ← Bool.not_eq_true, getLsbD_iff_div_mod, Nat.mod_two_not_eq_one]

/-! ## The instructions -/

/-- Settles O17: a key number up to 15 raises no fault, and each instruction is then a skip on that bit of the latch
or on its complement; above 15 the fault of both is KeyIndexOutOfRange. -/
theorem keySkipsTestOneKey : Obligations.KeySkipsTestOneKey := by
  refine fun x s => ⟨fun hkey => ?_, fun hout => ?_⟩
  · have hin : ¬ 15 < (s.reg x).toNat := Nat.not_lt.mpr hkey
    exact ⟨⟨_, exec_of_faultOf_none (if_neg hin), s.skipsWhen_skipIf (getLsbD_iff_div_mod s.keys (s.reg x).toNat)⟩,
      ⟨_, exec_of_faultOf_none (if_neg hin), s.skipsWhen_skipIf (not_getLsbD_iff_div_mod s.keys (s.reg x).toNat)⟩⟩
  · exact ⟨exec_of_faultOf (if_pos hout) (by decide), exec_of_faultOf (if_pos hout) (by decide)⟩

end Sys2Proof.Machine
end

section
/-! SUPPORT. The instructions of family F that touch no memory: the timer transfers, the start of a key wait, and the
arithmetic on `I` (46_family_F_misc.md R170 to R175). -/

namespace Sys2Proof.Machine

theorem word_add_zextByte_toNat (a : Word) (b : Byte) : (a + zextByte b).toNat = (a.toNat + b.toNat) % 65536 := by
  rw [BitVec.toNat_add, zextByte_toNat]

/-- Five times a byte fits in 16 bits, so no mask shows (46_family_F_misc.md R175). -/
theorem zextByte_mul_five_toNat (b : Byte) : (zextByte b * 5).toNat = b.toNat * 5 := by
  rw [BitVec.toNat_mul, zextByte_toNat]
  exact Nat.mod_eq_of_lt (by simp; omega)

/-- Settles O24: the encodings are rows of the opcode map, and each instruction is one write, of a register or of a
timer. -/
theorem timerTransfers : Obligations.TimerTransfers := by
  refine ⟨⟨encodedAs_row (.readDelay 0), encodedAs_row (.setDelay 0), encodedAs_row (.setSound 0)⟩, fun x s => ?_⟩
  exact ⟨⟨_, exec_of_faultOf_none rfl, s.writesReg_setReg x rfl⟩, exec_of_faultOf_none rfl, exec_of_faultOf_none rfl⟩

/-- Settles O25: the instruction is `beginWait` alone. -/
theorem waitKeyOnlyStartsTheWait : Obligations.WaitKeyOnlyStartsTheWait := fun _ _ =>
  ⟨_, exec_of_faultOf_none rfl, rfl, rfl, rfl⟩

/-- Settles O26: each instruction writes `I` alone, with a sum of 16-bit words or a product that does not wrap. -/
theorem indexArithmetic : Obligations.IndexArithmetic := fun x s =>
  ⟨⟨_, exec_of_faultOf_none rfl, rfl, word_add_zextByte_toNat s.idx (s.reg x)⟩,
    ⟨_, exec_of_faultOf_none rfl, rfl, zextByte_mul_five_toNat (s.reg x)⟩⟩

end Sys2Proof.Machine
end

section
/-! SUPPORT. The instructions of family F that store to memory at `I` or load from it: the bytes of the run, and the
bytes and registers outside it (46_family_F_misc.md R176 to R178). -/

namespace Sys2Proof.Machine

section Run
variable {s : State} {x k : Reg}

/-- A run inside memory moves `I` on to at most 0x1000, so the sum does not wrap. -/
theorem idx_add_runLength_toNat (hfit : s.idx.toNat + x.val ≤ 0xFFF) :
    (s.idx + zextCount (runLength x)).toNat = s.idx.toNat + x.val + 1 := by
  have hcount : (zextCount (runLength x)).toNat = x.val + 1 := Nat.mod_eq_of_lt (by rw [runLength]; omega)
  rw [BitVec.toNat_add, hcount, Nat.mod_eq_of_lt (by omega), Nat.add_assoc]

theorem read_storedRun_inside (hwf : s.mem.wf = true) (hfit : s.idx.toNat + x.val ≤ 0xFFF) (hk : k ≤ x) :
    (s.mem.writeBytes s.base (s.run x)).read (s.idx.toNat + k.val) = s.reg k := by
  have hlt : k.val < (s.run x).length := by rw [s.run_length]; exact Nat.lt_succ_of_le hk
  rw [← s.run_get x k hk]
  exact Memory.read_writeBytes_inside (s.run x) hwf (by rw [s.run_length, State.base]; omega) hlt

theorem read_storedRun_outside (hwf : s.mem.wf = true) (hfit : s.idx.toNat + x.val ≤ 0xFFF) {a : Nat}
    (ha : a < s.idx.toNat ∨ s.idx.toNat + x.val < a) :
    (s.mem.writeBytes s.base (s.run x)).read a = s.mem.read a := by
  have hlen := s.run_length x
  exact Memory.read_writeBytes_outside (s.run x) hwf (by rw [State.base]; omega) (by rw [State.base]; omega)

/-- A run loaded from memory takes its registers from the bytes at `I`, in order (46_family_F_misc.md R178). -/
theorem loadedRun_get_of_le (hk : k ≤ x) : (loadedRun x s)[k] = s.mem.read (s.idx.toNat + k.val) := by
  have hlt : k.val < runLength x := Nat.lt_succ_of_le hk
  have hlen : (s.mem.readBytes s.base (runLength x)).length = x.val + 1 := Memory.readBytes_length ..
  have hin : 0 ≤ k.val ∧ k.val < 0 + (s.mem.readBytes s.base (runLength x)).length :=
    ⟨Nat.zero_le _, by rwa [Nat.zero_add, Memory.readBytes_length]⟩
  rw [loadedRun, setRun_get _ _ _ _ (by omega), dif_pos hin]
  exact Memory.readBytes_get s.mem s.base (runLength x) k.val hlt

end Run

theorem read_bcdDigits_inside {s : State} (b : Byte) (hwf : s.mem.wf = true) (hfit : s.idx.toNat + 2 ≤ 0xFFF)
    {k : Nat} (hk : k < 3) :
    ((s.mem.writeBytes s.base (bcdDigits b)).read (s.idx.toNat + k)).toNat = b.toNat / 10 ^ (2 - k) % 10 := by
  rw [← bcdDigits_get_toNat b k hk]
  exact congrArg BitVec.toNat (Memory.read_writeBytes_inside (bcdDigits b) hwf (Nat.succ_le_succ hfit) hk)

/-- Settles O27: the store is the three digits written at `I`; the hundreds of a byte are a single digit. -/
theorem bcdStoresThreeDigits : Obligations.BcdStoresThreeDigits := by
  refine fun x s hwf => ⟨fun hfit => ?_, fun hout => exec_of_faultOf (if_pos hout) (by decide)⟩
  have digit (k : Nat) (hk : k < 3) := read_bcdDigits_inside (s.reg x) hwf hfit hk
  have ones : (s.reg x).toNat / 10 ^ (2 - 2) % 10 = (s.reg x).toNat % 10 := by
    rw [Nat.sub_self, Nat.pow_zero, Nat.div_one]
  have hundreds : (s.reg x).toNat / 10 ^ 2 % 10 = (s.reg x).toNat / 100 := Nat.mod_eq_of_lt (by omega)
  refine ⟨_, exec_of_faultOf_none (if_neg (Nat.not_lt.mpr hfit)), rfl, ?_, ?_, ?_, fun a ha => ?_⟩
  · exact (digit 0 (by decide)).trans hundreds
  · exact digit 1 (by decide)
  · exact (digit 2 (by decide)).trans ones
  · exact Memory.read_writeBytes_outside (bcdDigits (s.reg x)) hwf (Nat.succ_le_succ hfit) ha

/-- Settles O28: the store is the run written at `I`. -/
theorem storeRegsStoresTheRun : Obligations.StoreRegsStoresTheRun := by
  refine fun x s hwf => ⟨fun hfit => ?_, fun hout => exec_of_faultOf (if_pos hout) (by decide)⟩
  exact ⟨_, exec_of_faultOf_none (if_neg (Nat.not_lt.mpr hfit)), rfl, fun _ => read_storedRun_inside hwf hfit,
    fun _ => read_storedRun_outside hwf hfit, idx_add_runLength_toNat hfit⟩

/-- Settles O29: the load is the run read at `I`, set over the first registers. -/
theorem loadRegsLoadsTheRun : Obligations.LoadRegsLoadsTheRun := by
  refine fun x s => ⟨fun hfit => ?_, fun hout => exec_of_faultOf (if_pos hout) (by decide)⟩
  exact ⟨_, exec_of_faultOf_none (if_neg (Nat.not_lt.mpr hfit)), rfl, fun _ => loadedRun_get_of_le,
    fun _ => loadedRun_get_of_lt s, idx_add_runLength_toNat hfit⟩

/-- Settles O30: the load after the store reads, at the same addresses, the bytes that the store put there. -/
theorem storeThenLoadRestoresTheRun : Obligations.StoreThenLoadRestoresTheRun := by
  intro x s v hwf hfit
  obtain ⟨t, hstore, -, hstored, -, htidx⟩ := (storeRegsStoresTheRun x s hwf).1 hfit
  obtain ⟨u, hload, huframe, hloaded, hkept, huidx⟩ :=
    (loadRegsLoadsTheRun x { t with v := v, idx := s.idx }).1 hfit
  have hmem : u.mem = t.mem := (congrArg State.mem huframe :)
  exact ⟨t, u, hstore, hload, fun k hk => (hloaded k hk).trans (hstored k hk), hkept, htidx,
    BitVec.eq_of_toNat_eq (huidx.trans htidx.symm), hmem⟩

end Sys2Proof.Machine
end

section
/-! SUPPORT. The faults of the instructions, and the ticks of the timers (60_exceptions.md R207 to R213). -/

namespace Sys2Proof.Machine

/-! ## Faults (60_exceptions.md R207, R209) -/

/-- Settles O35: an instruction makes its writes, which leave the latches, or raises the fault of `faultOf`. -/
theorem faultsArePreciseAndExactlyThoseListed : Obligations.FaultsArePreciseAndExactlyThoseListed := fun _ s =>
  ⟨fun h => ⟨_, exec_of_faultOf_none h, effect_fault _ s, effect_halted _ s⟩, exec_of_faultOf rfl⟩

/-! ## TimerTick (60_exceptions.md R212, R213) -/

section Tick
variable {s : State} {rest : List Event}

theorem outsAfterTick_of_zero (h : s.st = 0) : outsAfterTick s = s.outs := if_pos h

theorem outsAfterTick_of_ne_zero (h : s.st ≠ 0) : outsAfterTick s = .sndPulse :: s.outs := if_neg h

/-- One tick emits at most one pulse, and none when `ST` is 0. -/
theorem outsAfterTick_eq_replicate : outsAfterTick s = List.replicate (min 1 s.st.toNat) .sndPulse ++ s.outs := by
  by_cases h : s.st = 0
  · rw [outsAfterTick_of_zero h, h]
    rfl
  · have hpos : s.st.toNat ≠ 0 := fun e => h (BitVec.eq_of_toNat_eq e)
    rw [outsAfterTick_of_ne_zero h, Nat.min_eq_left (by omega)]
    rfl

theorem step_timerTick (hp : s.pending = .timerTick :: rest) (hh : s.halted = false) (hrun : s.paused = false) :
    step s = .next { s with pending := rest }.ticked := by
  simp [step_cons hp, perform, performTimerTick, hh, hrun]

theorem step_timerTick_paused (hp : s.pending = .timerTick :: rest) (hh : s.halted = false)
    (hpaused : s.paused = true) : step s = .next { s with pending := rest } := by
  simp [step_cons hp, perform, performTimerTick, hh, hpaused]

/-- Settles O39: a running machine ticks both timers, and a paused one drops the event. -/
theorem timerTickTicksBothTimers : Obligations.TimerTickTicksBothTimers := fun _ _ hp hh =>
  ⟨fun hrun => ⟨_, step_timerTick hp hh hrun, rfl, tickDown_toNat _, tickDown_toNat _, outsAfterTick_of_ne_zero,
    outsAfterTick_of_zero⟩, step_timerTick_paused hp hh⟩

end Tick

theorem run_succ_of_step {M : Host.Core} {n : Nat} {s t : M.State} (h : M.step s = .next t) :
    M.run (n + 1) s = M.run n t := by
  rw [Host.Core.run, h]

/-- Settles O40, by induction on the number of ticks: the pulse of the first tick comes before those of the rest. -/
theorem ticksCountDownAndPulse : Obligations.TicksCountDownAndPulse := by
  intro n
  induction n with
  | zero =>
    intro s hp _ _
    have hp : s.pending = [] := hp
    exact ⟨s, rfl, by rw [← hp], rfl, rfl, by rw [Nat.zero_min]; rfl⟩
  | succ n ih =>
    intro s hp hh hrun
    have hfirst := run_succ_of_step (M := core) (n := n) (step_timerTick hp hh hrun)
    obtain ⟨t, ht, hframe, hdt, hst, houts⟩ :=
      ih { s with pending := List.replicate n .timerTick }.ticked rfl hh hrun
    simp only [State.ticked_dt, State.ticked_st, State.ticked_outs, tickDown_toNat, outsAfterTick_eq_replicate,
      ← List.append_assoc, List.replicate_append_replicate] at hdt hst houts
    refine ⟨t, hfirst.trans ht, hframe, by omega, by omega, ?_⟩
    have hpulses : min n (s.st.toNat - 1) + min 1 s.st.toNat = min (n + 1) s.st.toNat := by omega
    rw [houts, hpulses]

end Sys2Proof.Machine
end

section
/-! SUPPORT. PadWrite: which keys go down, what a completed wait writes, and which keys it can report (60_exceptions.md
R214, R215). -/

namespace Sys2Proof.Machine

/-! ## The keys that go down, and the completion -/

section Pad
variable {s : State} {m : Word}

theorem getLsbD_newlyDown (old m : Word) {k : Nat} (hk : k < 16) :
    (newlyDown old m).getLsbD k = (m.getLsbD k && !old.getLsbD k) := by
  simp [newlyDown, hk]

/-- Some key goes down against the latch `old`. -/
theorem newlyDown_ne_zero_iff {old m : Word} :
    newlyDown old m ≠ 0 ↔ ∃ k, k < 16 ∧ m.getLsbD k = true ∧ old.getLsbD k = false := by
  constructor
  · intro h
    obtain ⟨k, hk⟩ := List.exists_mem_of_ne_nil _ (keysOf_ne_nil h)
    rw [mem_keysOf, getLsbD_newlyDown _ _ k.isLt] at hk
    exact ⟨k, k.isLt, by simpa using hk⟩
  · rintro ⟨k, hk, hm, hold⟩ h
    have hbit := getLsbD_newlyDown old m hk
    simp [h, hm, hold] at hbit

/-- The key that the completion by a PadWrite of `m` reports (log 3). -/
def State.reportedKey (s : State) (m : Word) : Key :=
  pickKey (Config.waitKeyPick s.pickDraws (newlyDown s.keys m)) (keysOf (newlyDown s.keys m))

theorem State.reportedKey_goes_down (h : newlyDown s.keys m ≠ 0) :
    m.getLsbD (s.reportedKey m).val = true ∧ s.keys.getLsbD (s.reportedKey m).val = false := by
  have hmem : s.reportedKey m ∈ keysOf (newlyDown s.keys m) := pickKey_mem _ _ (keysOf_ne_nil h)
  rw [mem_keysOf, getLsbD_newlyDown _ _ (Fin.isLt _)] at hmem
  simpa using hmem

theorem State.padWritten_of_no_completion (h : s.await = false ∨ newlyDown s.keys m = 0) :
    s.padWritten m = { s with keys := m } := by
  obtain h | h := h <;> simp [State.padWritten, completeWait, h]

theorem State.padWritten_of_completion (ha : s.await = true) (hn : newlyDown s.keys m ≠ 0) :
    s.padWritten m = { s.setReg s.waitX (keyByte (s.reportedKey m)) with
      keys := m, await := false, pickDraws := s.pickDraws + 1 } := by
  have hb : (newlyDown s.keys m != 0) = true := bne_iff_ne.mpr hn
  simp only [State.padWritten, completeWait, ha, hb, Bool.and_self, if_true]
  rfl

/-- A PadWrite writes at most the register of the wait. -/
theorem State.padWritten_reg_of_ne {r : Reg} (hr : r ≠ s.waitX) : (s.padWritten m).reg r = s.reg r := by
  by_cases h : s.await = false ∨ newlyDown s.keys m = 0
  · rw [State.padWritten_of_no_completion h]
    rfl
  · obtain ⟨ha, hn⟩ := not_or.mp h
    rw [State.padWritten_of_completion (by simpa using ha) hn]
    exact (State.reg_setReg ..).trans (if_neg hr)

theorem step_padWrite {rest : List Event} (hp : s.pending = .padWrite m :: rest) (hh : s.halted = false) :
    step s = .next ({ s with pending := rest }.padWritten m) := by
  simp [step_cons hp, perform, performPadWrite, hh]

theorem keyByte_toNat (k : Key) : (keyByte k).toNat = k.val :=
  Nat.mod_eq_of_lt (by omega)

end Pad

/-- Settles O41: whether the wait is completed is decided by `newlyDown`, the keys up in the old latch and down in the
new one. -/
theorem padWriteLatchesAndCompletes : Obligations.PadWriteLatchesAndCompletes := by
  intro s m rest hp hh
  rw [step_padWrite hp hh]
  constructor
  · intro h
    rw [State.padWritten_of_no_completion]
    refine h.imp_right fun hold => ?_
    by_contra hn
    obtain ⟨k, hk, hm, hup⟩ := newlyDown_ne_zero_iff.mp hn
    exact Bool.false_ne_true (hup.symm.trans (hold k hk hm))
  · intro ha hdown
    have hn : newlyDown s.keys m ≠ 0 := newlyDown_ne_zero_iff.mpr hdown
    obtain ⟨hm, hup⟩ := State.reportedKey_goes_down hn
    rw [State.padWritten_of_completion (s := { s with pending := rest }) ha hn]
    refine ⟨s.reportedKey m, _, rfl, rfl, hm, hup, rfl, ?_, fun r hr => ?_⟩
    · exact (congrArg BitVec.toNat ((State.reg_setReg ..).trans (if_pos rfl))).trans (keyByte_toNat _)
    · exact (State.reg_setReg ..).trans (if_neg hr)

/-! ## The free choice among the new keys (log 3) -/

/-- With one key the choice plays no part, which the remainder modulo 1 says as well. -/
theorem pickKey_eq_getD (choice : Nat) (ks : List Key) : pickKey choice ks = ks.getD (choice % ks.length) 0 := by
  unfold pickKey
  split
  · simp [Nat.mod_one]
  · rfl

theorem mem_iff_exists_pickKey {ks : List Key} {k : Key} (h : ks ≠ []) :
    k ∈ ks ↔ ∃ choice, pickKey choice ks = k := by
  constructor
  · intro hk
    obtain ⟨i, hi, rfl⟩ := List.mem_iff_getElem.mp hk
    exact ⟨i, by rw [pickKey_eq_getD, Nat.mod_eq_of_lt hi, List.getD_eq_getElem _ _ hi]⟩
  · rintro ⟨choice, rfl⟩
    exact pickKey_mem choice ks h

/-- Settles O42: the position of a key among the new keys is a choice that falls on it. -/
theorem keyWaitMayReportAnyNewKey : Obligations.KeyWaitMayReportAnyNewKey := fun _ _ hn =>
  mem_keysOf.symm.trans (mem_iff_exists_pickKey (keysOf_ne_nil hn))

end Sys2Proof.Machine
end

section
/-! SUPPORT. Run control, the halted machine, and the frame of the events from outside (60_exceptions.md R208, R210,
R216, R217, 70_reset_and_hazards.md R246). -/

namespace Sys2Proof.Machine

/-! ## HostHalt and HostPauseToggle (60_exceptions.md R216, R217) -/

theorem performHostPauseToggle_of_not_halted {s : State} (hh : s.halted = false) :
    performHostPauseToggle s = .next { s with paused := !s.paused } := by
  simp [performHostPauseToggle, hh]

/-- Settles O43: HostHalt asks for nothing, HostPauseToggle for a machine that is not halted. -/
theorem hostHaltAndPauseToggle : Obligations.HostHaltAndPauseToggle := fun s rest =>
  ⟨step_cons, fun hp hh =>
    (step_cons hp).trans (performHostPauseToggle_of_not_halted (s := { s with pending := rest }) hh)⟩

/-! ## A halted machine (60_exceptions.md R208, 70_reset_and_hazards.md R246) -/

/-- The four events that are not enabled in a halted machine. -/
theorem perform_halted_stops {e : Event} {s : State} (hh : s.halted = true)
    (he : e = .step ∨ e = .timerTick ∨ (∃ m, e = .padWrite m) ∨ e = .hostPauseToggle) :
    perform e s = .fault (stopReason s.fault) := by
  obtain rfl | rfl | ⟨m, rfl⟩ | rfl := he <;> exact if_pos hh

/-- An event that a halted machine performs changes at most the outputs, unless it is a Load that succeeds. -/
theorem perform_halted_next {e : Event} {s t : State} (hh : s.halted = true) (h : perform e s = .next t) :
    (∃ outs, t = { s with outs := outs }) ∨ ∃ img, e = .load img ∧ img.length ≤ 3584 ∧ t = s.loaded img := by
  have hstop {c : Machine.Fault} (hc : perform e s = .fault c) : False := by
    rw [hc] at h
    cases h
  cases e with
  | step => exact (hstop (perform_halted_stops hh (.inl rfl))).elim
  | timerTick => exact (hstop (perform_halted_stops hh (.inr (.inl rfl)))).elim
  | padWrite m => exact (hstop (perform_halted_stops hh (.inr (.inr (.inl ⟨m, rfl⟩))))).elim
  | hostPauseToggle => exact (hstop (perform_halted_stops hh (.inr (.inr (.inr rfl))))).elim
  | hostHalt =>
    cases h
    exact .inl ⟨s.outs, by rw [← hh]⟩
  | load img =>
    obtain ⟨hl, rfl⟩ | ⟨-, rfl⟩ := performLoad_cases h
    · exact .inr ⟨img, rfl, hl, rfl⟩
    · exact .inl ⟨_, rfl⟩

/-- Settles O46: an instruction slot stops a halted machine whether it is pending or not, so a next state is the work
of a pending event. -/
theorem haltedMachineIsFrozenUntilLoad : Obligations.HaltedMachineIsFrozenUntilLoad := by
  intro s hh
  constructor
  · intro t h
    obtain ⟨u, hslot, hu⟩ | ⟨e, rest, hp, -, he⟩ := step_cases h
    · obtain ⟨rest, rfl⟩ := hslot.exists_pending
      obtain ⟨hrun, -⟩ := performStep_cases hu
      exact (Bool.false_ne_true (hrun.symm.trans hh)).elim
    · obtain ⟨outs, rfl⟩ | ⟨img, rfl, hl, rfl⟩ := perform_halted_next (s := { s with pending := rest }) hh he
      · exact .inl rfl
      · exact .inr ⟨img, rest, hp, hl, rfl, rfl⟩
  · intro e rest hp he
    exact (step_cons hp).trans (perform_halted_stops (s := { s with pending := rest }) hh he)

/-! ## The frame of the events beside Step and Load (60_exceptions.md R210, 10_state.md R36) -/

theorem perform_outside_frame {s t : State} {e : Event} (h : perform e s = .next t) (hstep : e ≠ .step)
    (hload : ∀ img, e ≠ .load img) :
    t = { s with v := t.v, dt := t.dt, st := t.st, keys := t.keys, halted := t.halted, paused := t.paused,
                 await := t.await, pickDraws := t.pickDraws, outs := t.outs } ∧
      ∀ r, r ≠ s.waitX → t.reg r = s.reg r := by
  cases e with
  | step => exact absurd rfl hstep
  | load img => exact absurd rfl (hload img)
  | timerTick =>
    obtain ⟨-, ⟨-, rfl⟩ | ⟨-, rfl⟩⟩ := performTimerTick_cases h <;> exact ⟨rfl, fun _ _ => rfl⟩
  | padWrite m =>
    obtain ⟨-, rfl⟩ := performPadWrite_cases h
    refine ⟨?_, fun r hr => State.padWritten_reg_of_ne hr⟩
    rw [State.padWritten_frame]
  | hostHalt =>
    cases h
    exact ⟨rfl, fun _ _ => rfl⟩
  | hostPauseToggle =>
    obtain ⟨-, rfl⟩ := performHostPauseToggle_cases h
    exact ⟨rfl, fun _ _ => rfl⟩

/-- Settles O47: none of the elements named is among those that `perform_outside_frame` lets change. -/
theorem noOutsideEventRedirectsTheProgram : Obligations.NoOutsideEventRedirectsTheProgram := by
  intro s t e rest hp h hstep hload
  obtain ⟨hframe, hregs⟩ := perform_outside_frame ((step_cons hp).symm.trans h) hstep hload
  rw [hframe]
  exact ⟨rfl, rfl, rfl, rfl, rfl, rfl, rfl, rfl, rfl, rfl, hregs⟩

end Sys2Proof.Machine
end

section
/-! SUPPORT. A Load that is refused, the timers, and the self-jump (70_reset_and_hazards.md R231, R240, R247). -/

namespace Sys2Proof.Machine

/-! ## A Load of an image that is too large (R231, 60_exceptions.md R206) -/

/-- Settles O45: the refused Load records its report, once the event is taken off the list. -/
theorem oversizedLoadChangesNothing : Obligations.OversizedLoadChangesNothing := fun _ _ _ hp hl =>
  (step_cons hp).trans (performLoad_of_too_large _ hl)

/-! ## What writes the timers (R240, 10_state.md R26) -/

theorem effect_timers (i : Instr) (s : State) :
    ((effect i s).dt = s.dt ∨ ∃ x, i = .setDelay x ∧ (effect i s).dt = s.reg x) ∧
    ((effect i s).st = s.st ∨ ∃ x, i = .setSound x ∧ (effect i s).st = s.reg x) := by
  cases i with
  | setDelay x => exact ⟨.inr ⟨x, rfl, rfl⟩, .inl rfl⟩
  | setSound x => exact ⟨.inl rfl, .inr ⟨x, rfl, rfl⟩⟩
  | _ => exact ⟨.inl (effect_dt s rfl), .inl (effect_st s rfl)⟩

/-- The writer of a timer is told by the fetched word, and the register it names is read as it was before the fetch. -/
theorem performStep_timers {s t : State} (h : performStep s = .next t) :
    (t.dt = s.dt ∨ ∃ x, fetchWord s = some (encode (.setDelay x)) ∧ t.dt = s.reg x) ∧
    (t.st = s.st ∨ ∃ x, fetchWord s = some (encode (.setSound x)) ∧ t.st = s.reg x) := by
  obtain ⟨-, ⟨-, rfl⟩ | ⟨-, -, rfl⟩ | ⟨-, -, -, rfl⟩ | ⟨-, -, -, w, hw, ⟨i, hi, hexec⟩ | ⟨e, -, rfl⟩⟩⟩ :=
    performStep_cases h
  · exact ⟨.inl rfl, .inl rfl⟩
  · exact ⟨.inl rfl, .inl rfl⟩
  · exact ⟨.inl rfl, .inl rfl⟩
  · rw [hw, ← encode_of_decodeWord hi]
    obtain ⟨-, rfl⟩ | ⟨-, rfl⟩ := exec_cases hexec
    · obtain ⟨hdt, hst⟩ := effect_timers i (s.fetched w)
      exact ⟨hdt.imp_right fun ⟨x, hx, hval⟩ => ⟨x, by rw [hx], hval⟩,
        hst.imp_right fun ⟨x, hx, hval⟩ => ⟨x, by rw [hx], hval⟩⟩
    · exact ⟨.inl rfl, .inl rfl⟩
  · exact ⟨.inl rfl, .inl rfl⟩

/-- No event beside the Step raises a timer: a tick counts down, a Load clears, the others leave both alone. -/
theorem perform_outside_timers_le {s t : State} {e : Event} (h : perform e s = .next t) (hstep : e ≠ .step) :
    t.dt.toNat ≤ s.dt.toNat ∧ t.st.toNat ≤ s.st.toNat := by
  have hkept : s.dt.toNat ≤ s.dt.toNat ∧ s.st.toNat ≤ s.st.toNat := ⟨le_rfl, le_rfl⟩
  cases e with
  | step => exact absurd rfl hstep
  | timerTick =>
    obtain ⟨-, ⟨-, rfl⟩ | ⟨-, rfl⟩⟩ := performTimerTick_cases h
    · exact hkept
    · simp [tickDown_toNat]
  | padWrite m =>
    obtain ⟨-, rfl⟩ := performPadWrite_cases h
    rw [State.padWritten_frame]
    exact hkept
  | hostHalt =>
    cases h
    exact hkept
  | hostPauseToggle =>
    obtain ⟨-, rfl⟩ := performHostPauseToggle_cases h
    exact hkept
  | load img =>
    obtain ⟨-, rfl⟩ | ⟨-, rfl⟩ := performLoad_cases h
    · exact ⟨Nat.zero_le _, Nat.zero_le _⟩
    · exact hkept

/-- Settles O48: a rise is the work of an instruction slot, and there of one of the two writers. -/
theorem timersRiseOnlyBySetDelayAndSetSound : Obligations.TimersRiseOnlyBySetDelayAndSetSound := by
  intro s t h
  obtain ⟨u, hslot, hu⟩ | ⟨e, rest, -, hne, he⟩ := step_cases h
  · obtain ⟨rest, rfl⟩ := hslot.exists_pending
    obtain ⟨hdt, hst⟩ := performStep_timers hu
    exact ⟨fun hlt => hdt.resolve_left (mt (congrArg BitVec.toNat) hlt.ne'),
      fun hlt => hst.resolve_left (mt (congrArg BitVec.toNat) hlt.ne')⟩
  · obtain ⟨hdt, hst⟩ := perform_outside_timers_le he hne
    exact ⟨fun hlt => absurd hlt hdt.not_gt, fun hlt => absurd hlt hst.not_gt⟩

/-! ## The self-jump (R247, 40_family_0_1_2_flow.md R102) -/

/-- The Jump writes to `PC` the address that it was fetched from. -/
theorem step_selfJump {s : State} {nnn : Addr} (hpc : s.pc = zextAddr nnn)
    (hfetch : fetchWord s = some (encode (.jump nnn))) (hh : s.halted = false) (hp : s.paused = false)
    (ha : s.await = false) (hnil : s.pending = []) : step s = .next { s with ir := encode (.jump nnn) } := by
  rw [step_nil hnil, performStep_exec hh hp ha hfetch (decodeWord_encode _), exec_of_faultOf_none rfl, hpc]
  rfl

/-- Settles O52: the fetch of the next step sees the same `PC` and the same memory. -/
theorem selfJumpChangesOnlyIr : Obligations.SelfJumpChangesOnlyIr := fun s ⟨nnn, hpc, hfetch⟩ hh hp ha hnil =>
  ⟨{ s with ir := encode (.jump nnn) }, step_selfJump hpc hfetch hh hp ha hnil, rfl, nnn, hpc, hfetch⟩

/-- Settles O53, by induction on the number of steps: each one leaves a running machine at the self-jump. -/
theorem selfJumpNeverDies : Obligations.SelfJumpNeverDies := by
  intro n
  induction n with
  | zero => exact fun s _ _ _ _ _ hf => not_not.mpr hf
  | succ n ih =>
    intro s hjump hh hp ha hnil hf
    obtain ⟨t, ht, hframe, hstays⟩ := selfJumpChangesOnlyIr s hjump hh hp ha hnil
    refine ⟨not_not.mpr hf, fun t' ht' => ?_⟩
    obtain rfl : t = t' := Host.Outcome.next.inj (ht.symm.trans ht')
    rw [hframe] at hstays ⊢
    exact ih _ hstays hh hp ha hnil hf

end Sys2Proof.Machine
end
